-- ==== Sys2Proof/Word.lean ====
section
/-! DEFINITION. The word types of the machine (R8, R9): what the spec treats as bits is a bit vector, a register number is
one of sixteen, an address is a plain number until it is checked. -/

namespace Sys2Proof

/-- One byte of memory, one general register, one timer, the immediate `KK` (R8, R92). -/
abbrev Byte := BitVec 8

/-- `pc`, `I`, a stack entry, `KEYPAD`, `KEYLATCH`, an opcode (R8). -/
abbrev Word := BitVec 16

/-- The 12-bit immediate `NNN` (R92, R93). -/
abbrev Addr12 := BitVec 12

/-- A 4-bit field of an opcode, and the sprite height `N` (R9, R92). -/
abbrev Nibble := BitVec 4

/-- `VIDEO[0..2047]`, one bit per cell (R31): 32 rows of 64 cells, so that cell `x + 64*y` is bit x of row y. -/
abbrev Video := Vector (BitVec 64) 32

/-- A register number, 0..15, from the field `X` or `Y` (R21, R92); also a key number 0..15 (R30). -/
abbrev Reg := Fin 16

/-- `VF`, register 15, the machine's only flag (R22). -/
def vf : Reg := 15

/-- `V0`, the implicit offset operand of `JP V0,nnn` (R191). -/
def v0 : Reg := 0

end Sys2Proof
end

