-- ==== Sys2Proof/Config.lean ====
section
/-! DEFINITION. What is fixed for the machine (R8), the shape of the parameters the spec leaves open, and the one free value
of the model. The VALUES of the two default parameters stand in `Machine/Parameters.lean`. -/

namespace Sys2Proof

/-- `MEM` has 4096 bytes, 0x000..0xFFF (R8, R32). -/
def Config.memSize : Nat := 0x1000

/-- Programs load at 0x200, which is also the reset value of `pc` (R8, R61). -/
def Config.loadBase : Nat := 0x200

/-- The longest program: 4096 - 512 bytes (R8, R283). -/
def Config.maxProgram : Nat := 3584

/-- The font area is 0x000..0x04F, 16 glyphs of 5 bytes (R8, R42). -/
def Config.fontSize : Nat := 80

/-- The framebuffer is 64 columns wide (R31). -/
def Config.screenWidth : Nat := 64

/-- The framebuffer is 32 rows high (R31). -/
def Config.screenHeight : Nat := 32

/-- The two OPEN Booleans `QUIRK_SHIFT_X_DEFAULT` and `QUIRK_LOGIC_VF_DEFAULT` of R8 and R34: an argument of the events
`RESET` and `INITIALIZE`, so that a claim about them holds for all four settings (log entry 3). -/
structure QuirkDefaults where
  /-- `QUIRK_SHIFT_X_DEFAULT`. -/
  shiftX : Bool
  /-- `QUIRK_LOGIC_VF_DEFAULT`. -/
  logicVF : Bool
  deriving DecidableEq, Repr

/-- The free input `RANDOM_BYTE` of R192 and R261, applied to the number of draws made before (log entry 1). It has no body:
a claim about `RND` holds for every value of every draw. -/
opaque Config.randomByte : Nat → Byte

end Sys2Proof
end

