-- ==== Sys2Proof/Machine/Parameters.lean ====
section
/-! DEFINITION. The values the model gives the two default parameters of R8: the font table and the quirk defaults. -/

namespace Sys2Proof.Machine

/-- `FONT[0..79]`, the default table of R42, five bytes a glyph, top row first. UNVERIFIED: the spec takes the bytes from general
knowledge (G2, D18; log entry 4). -/
def fontTable : List Byte :=
  [0xF0, 0x90, 0x90, 0x90, 0xF0,
   0x20, 0x60, 0x20, 0x20, 0x70,
   0xF0, 0x10, 0xF0, 0x80, 0xF0,
   0xF0, 0x10, 0xF0, 0x10, 0xF0] ++
  [0x90, 0x90, 0xF0, 0x10, 0x10,
   0xF0, 0x80, 0xF0, 0x10, 0xF0,
   0xF0, 0x80, 0xF0, 0x90, 0xF0,
   0xF0, 0x10, 0x20, 0x40, 0x40] ++
  [0xF0, 0x90, 0xF0, 0x90, 0xF0,
   0xF0, 0x90, 0xF0, 0x10, 0xF0,
   0xF0, 0x90, 0xF0, 0x90, 0x90,
   0xE0, 0x90, 0xE0, 0x90, 0xE0] ++
  [0xF0, 0x80, 0x80, 0x80, 0xF0,
   0xE0, 0x90, 0x90, 0x90, 0xE0,
   0xF0, 0x80, 0xF0, 0x80, 0xF0,
   0xF0, 0x80, 0xF0, 0x80, 0x80]

/-- `FONT[a]` for `a` in 0..79, and 0 for every other address: what `INITIALIZE` leaves at `a` (R42, R281). -/
def fontByte (a : Nat) : Byte := fontTable.getD a 0

/-- The quirk defaults of `State.reset`. The spec leaves both OPEN (R34, D8). DESIGN CHOICE: false and false, as its own test
vectors fix them (log entry 3); the events take the defaults as an argument, and no statement rests on this value. -/
def quirkDefaults : QuirkDefaults := ⟨false, false⟩

end Sys2Proof.Machine
end

