-- ==== Sys2Proof/Machine/Memory.lean ====
section
/-! DEFINITION. `MEM` (R32, R60) as plain data: the cells that differ from what `INITIALIZE` leaves, in rising order of address.
`Memory.write` is the one way a byte changes; ranges are checked before it, in `Ops.lean` (R64). -/

namespace Sys2Proof.Machine

/-- `MEM`: a canonical list of cells (see `Memory.wf`). -/
abbrev Memory := List Host.Cell

/-- What an address that is not listed reads as: the contents after `INITIALIZE`, the font and zeros (R42; log entry 5). -/
def Memory.unlisted (a : Nat) : Byte := fontByte a

/-- The byte at an address (R69: the last byte written there). -/
def Memory.read : Memory → Nat → Byte
  | [], a => Memory.unlisted a
  | (k, v) :: rest, a => if k = a then v else Memory.read rest a

/-- Insert a cell in address order. -/
def Memory.place (a : Nat) (b : Byte) : Memory → Memory
  | [] => [(a, b)]
  | (k, v) :: rest => if a < k then (a, b) :: (k, v) :: rest else (k, v) :: Memory.place a b rest

/-- Remove what is listed for an address. -/
def Memory.drop (a : Nat) : Memory → Memory
  | [] => []
  | (k, v) :: rest => if k = a then Memory.drop a rest else (k, v) :: Memory.drop a rest

/-- Write a byte, keeping the canonical form: writing what an unlisted address reads as removes the cell. -/
def Memory.write (m : Memory) (a : Nat) (b : Byte) : Memory :=
  if b = Memory.unlisted a then Memory.drop a m else Memory.place a b (Memory.drop a m)

/-- Write bytes at consecutive addresses, in ascending order (R67). -/
def Memory.writeList (m : Memory) (a : Nat) : List Byte → Memory
  | [] => m
  | b :: bs => Memory.writeList (Memory.write m a b) (a + 1) bs

/-- The cells from `lo` upward rise strictly, lie inside 0x000..0xFFF, and none equals what an unlisted address reads as. -/
def Memory.wfFrom (lo : Nat) : Memory → Bool
  | [] => true
  | (k, v) :: rest => decide (lo ≤ k) && decide (k < Config.memSize) && (v != Memory.unlisted k) && Memory.wfFrom (k + 1) rest

/-- The canonical form. -/
def Memory.wf (m : Memory) : Bool := Memory.wfFrom 0 m

/-- `MEM` after `INITIALIZE` (R42, R281): nothing is listed. -/
def Memory.initial : Memory := []

/-- `MEM` at power-on (R41): every byte 0, the font not yet there. -/
def Memory.zeroed : Memory := Memory.writeList Memory.initial 0 (List.replicate Config.fontSize 0)

end Sys2Proof.Machine
end

