-- ==== Sys2Proof/Machine/State.lean ====
section
/-! DEFINITION. The state of the machine: exactly the twelve components of R20 and, the model's own, the count of random draws.
Plain data. Then the reasons a step can stop, and the states the spec gives: power-on (R41) and after a reset (R40). -/

namespace Sys2Proof.Machine

/-- The machine state (R20). -/
structure State where
  /-- `V[0..15]`, the general registers; `V[15]` is VF (R21, R22). -/
  v : Vector Byte 16
  /-- `I`, the memory-index register; all 16 bits are held (R25). -/
  i : Word
  /-- `pc`, the address of the next instruction (R23). -/
  pc : Word
  /-- `STACK[0..15]` (R26). -/
  stack : Vector Word 16
  /-- `sp`, 0..15; 0 is empty (R27, D4). -/
  sp : Fin 16
  /-- `DT`, the delay timer (R28). -/
  dt : Byte
  /-- `ST`, the sound timer (R29). -/
  st : Byte
  /-- `KEYPAD`, bit k is 1 while key k is down (R30). -/
  keypad : Word
  /-- `KEYLATCH`, the wait-for-key latch (R33). -/
  keylatch : Word
  /-- `VIDEO[0..2047]`, row y is `video[y]` and its bit x is the cell of column x, cell `x + 64*y` (R31; log entry 26). -/
  video : Video
  /-- `Q_SHIFT_X` (R34). -/
  qShiftX : Bool
  /-- `Q_LOGIC_VF` (R34). -/
  qLogicVF : Bool
  /-- `MEM[0x000..0xFFF]` (R32). -/
  mem : Memory
  /-- The MODEL's own field: how many random bytes have been drawn (R192; log entries 1 and 2). -/
  draws : Nat
  deriving DecidableEq, Repr

/-- Why an event ends with a result other than ok: the closed enumeration of R240, with its payloads. The state is unchanged
by a fault in every component (R246), so a fault carries none. -/
inductive Fault where
  /-- Any `EXECUTE`, at decode: the word matches no row of R95; the word and the `pc` it was fetched from (R241). Safe: the
  document's own fault, and the strict matching of selectors errs toward stopping (D2; log entry 7). -/
  | unknownOpcode (op addr : Word)
  /-- The fetch, `DRW`, `LD B,Vx`, `LD [I],Vx`, `LD Vx,[I]`: a byte above 0xFFF is needed; the lowest such address (R244). Safe:
  the model stops where the document is silent, as the spec decides (D5; log entry 11). -/
  | addressFault (addr : Nat)
  /-- `CALL` at `sp` = 15; the `pc` of the `CALL` (R242). Safe: it stops where the document leaves the policy open (D3; log
  entry 12). -/
  | stackOverflow (addr : Word)
  /-- `RET` at `sp` = 0; the `pc` of the `RET` (R243). Safe, as `stackOverflow`. -/
  | stackUnderflow (addr : Word)
  /-- `SKP`, `SKNP` with VX above 15; the value of VX (R247). Safe: it stops where the document is silent (D12; log entry 17). -/
  | keyIndexFault (value : Byte)
  /-- The host event `LOAD` only, with more than 3584 bytes; never an instruction (R251). Safe: the document's own result. -/
  | capacityError
  deriving DecidableEq, Repr

/-- Why the model has no meaning for an instruction. -/
inductive Refusal where
  /-- An instruction the model gives no meaning; raised by no arm of `exec`, since all 34 have one. Safe: it stops. -/
  | notModelled (mnemonic : String)
  deriving DecidableEq, Repr

/-- The state `RESET` leaves (R40, R282): everything but `MEM`, which survives, and the model's own count of draws, which a
reset does not rewind ("`RESET` does not reseed anything", R192). -/
def State.resetWith (q : QuirkDefaults) (mem : Memory) (draws : Nat) : State where
  v := Vector.replicate 16 0
  i := 0
  pc := 0x200
  stack := Vector.replicate 16 0
  sp := 0
  dt := 0
  st := 0
  keypad := 0
  keylatch := 0
  video := Vector.replicate 32 0
  qShiftX := q.shiftX
  qLogicVF := q.logicVF
  mem := mem
  draws := draws

/-- The state before any `INITIALIZE` (R41): every component zero, both quirk flags false, no font in `MEM`. -/
def State.powerOn : State where
  v := Vector.replicate 16 0
  i := 0
  pc := 0
  stack := Vector.replicate 16 0
  sp := 0
  dt := 0
  st := 0
  keypad := 0
  keylatch := 0
  video := Vector.replicate 32 0
  qShiftX := false
  qLogicVF := false
  mem := Memory.zeroed
  draws := 0

/-- The machine right after reset, that is after `INITIALIZE` (R281, R40, R42): nothing listed in memory, `pc` at 0x200. No program
is loaded: `LOAD` does that, from outside (R285; log entry 8). -/
def State.reset : State := State.resetWith quirkDefaults Memory.initial 0

end Sys2Proof.Machine
end

