-- ==== Sys2Proof/Machine/Ops.lean ====
section
/-! DEFINITION. The named operations over registers, `pc`, the call stack, memory and the framebuffer that the meanings share,
and the one operation that ends an event with a fault. -/

namespace Sys2Proof.Machine

/-- The outcome of running an instruction. -/
abbrev Result := Host.Outcome State Fault Refusal

/-- Raising a fault (R11, R246): the event ends with it as its result and the state is unchanged. This is all that "taking an
exception" is on this machine: nothing is saved, no mode changes, control goes nowhere (R249); and since there is no trap there
is no return from one (R250). -/
def raise (f : Fault) : Result := .fault f

/-- Read a general register (R11, R21). -/
def readV (s : State) (x : Reg) : Byte := s.v[x]

/-- Write a general register (R11, R21). -/
def writeV (s : State) (x : Reg) (b : Byte) : State := { s with v := s.v.set x b }

/-- `pc <- target` (R11). -/
def setPc (s : State) (target : Word) : State := { s with pc := target }

/-- The sequential class of R124: `pc <- (pc + 2) mod 65536`. -/
def advance (s : State) : State := setPc s (s.pc + 2)

/-- The skip class of R124: 4 when the condition holds, else 2; the skipped word is not looked at. -/
def skipIf (c : Bool) (s : State) : State := setPc s (if c then s.pc + 4 else s.pc + 2)

/-- Push a return address: pre-increment `sp`, then store (R27, R143). -/
def pushStack (s : State) (w : Word) : State :=
  { s with sp := s.sp + 1, stack := s.stack.set (s.sp + 1 : Fin 16).val w }

/-- The newest return address (R27). -/
def topOfStack (s : State) : Word := s.stack[s.sp]

/-- Drop the newest return address: post-decrement `sp`; the entry is not erased (R27, R141). -/
def popStack (s : State) : State := { s with sp := s.sp - 1 }

/-- The byte of `MEM` at an address (R11 `MemRead`, after the check of `rangeFault`). -/
def byteAt (s : State) (a : Nat) : Byte := Memory.read s.mem a

/-- The check of R64 for `count` bytes from `base`, in unbounded integers: the fault with the lowest offending address when one
of them lies above 0xFFF. No bytes, no fault (R206). -/
def rangeFault (base count : Nat) : Option Fault :=
  if 0 < count ∧ 0xFFF < base + count - 1 then some (.addressFault (max base 0x1000)) else none

/-- Run `k` when the range is inside `MEM`, else raise its fault: every check precedes every write (R11, R64). -/
def withRange (base count : Nat) (k : Result) : Result :=
  match rangeFault base count with
  | some f => raise f
  | none => k

/-- `count` bytes read from `base` upward (R65). -/
def loadBytes (s : State) (base : Nat) : Nat → List Byte
  | 0 => []
  | n + 1 => byteAt s base :: loadBytes s (base + 1) n

/-- Bytes stored from `base` upward (R65, R67). -/
def storeBytes (s : State) (base : Nat) (bytes : List Byte) : State :=
  { s with mem := Memory.writeList s.mem base bytes }

/-- `V[0]`..`V[x]` in order (R226). -/
def registersTo (s : State) (x : Reg) : List Byte := s.v.toList.take (x.val + 1)

/-- `V[r] <- MEM[base + r]` for r in 0..x, the other registers untouched (R227). -/
def loadRegisters (s : State) (base : Nat) (x : Reg) : State :=
  { s with v := Vector.ofFn fun r : Fin 16 => if r ≤ x then byteAt s (base + r.val) else readV s r }

/-- Row y of the framebuffer; there are 32 (R31). -/
def rowOf (video : Video) (y : Nat) : BitVec 64 := if h : y < 32 then video[y] else 0

/-- Framebuffer cell `k = x + 64*y`: bit x of row y (R31). -/
def cellOf (video : Video) (k : Nat) : Bool := (rowOf video (k / 64)).getLsbD (k % 64)

/-- The framebuffer with cell k toggled (R200: `VIDEO[idx] ^ 1`). -/
def toggleCell (video : Video) (k : Nat) : Video :=
  video.setIfInBounds (k / 64) (rowOf video (k / 64) ^^^ BitVec.twoPow 64 (k % 64))

/-- A framebuffer with every cell 0 (R140, R282). -/
def clearVideo : Video := Vector.replicate 32 0

/-- One draw from the random source (R192): the free byte, and the state that has made one draw more. -/
def drawRandom (s : State) : Byte × State := (Config.randomByte s.draws, { s with draws := s.draws + 1 })

end Sys2Proof.Machine
end

