-- ==== Sys2Proof/Machine/Operands.lean ====
section
/-! DEFINITION. The operand forms of R93 and R228: immediates zero-extended, registers direct, memory at `I` plus an offset,
the shift source the quirk selects, and the screen position of a sprite. -/

namespace Sys2Proof.Machine

/-- `zext_16(NNN)` (R93). -/
def zextAddr (nnn : Addr12) : Word := nnn.setWidth 16

/-- `zext_16(b)` of a byte (R10). -/
def zextByte (b : Byte) : Word := b.setWidth 16

/-- The one data addressing mode: `I` plus an offset in unbounded integers (R64, R228). -/
def indexAddr (s : State) (offset : Nat) : Nat := s.i.toNat + offset

/-- The source of `SHR` and `SHL`: VX under `Q_SHIFT_X`, else VY (R176, R178). -/
def shiftSource (s : State) (x y : Reg) : Byte := if s.qShiftX then readV s x else readV s y

/-- The target of `JP V0,nnn`: the unmasked sum (R191). -/
def offsetTarget (s : State) (nnn : Addr12) : Word := zextAddr nnn + zextByte (readV s v0)

/-- The glyph address of `LD F,Vx`: VX * 5 for the whole byte (R224). -/
def glyphAddr (b : Byte) : Word := zextByte b * 5

/-- The three decimal digits of a byte, hundreds first, by floor division (R10, R225). -/
def bcdDigits (b : Byte) : List Byte := [b / 100, (b / 10) % 10, b % 10]

/-- Whether key k is down (R30). -/
def keyDown (s : State) (k : Nat) : Bool := s.keypad.getLsbD k

/-- The cells one sprite row toggles, column 0 first: bit 7 is column 0 (R201), the column wraps modulo 64 (R202), and a row
below the screen is clipped (R203). -/
def spriteRowCells (b : Byte) (x0 y : Nat) : List Nat :=
  (List.range 8).filterMap fun col =>
    if b.getLsbD (7 - col) && decide (y ≤ 31) then some ((x0 + col) % 64 + 64 * y) else none

/-- The cells a sprite toggles, row after row downward (R200). -/
def spriteCells (x0 y : Nat) : List Byte → List Nat
  | [] => []
  | b :: rows => spriteRowCells b x0 y ++ spriteCells x0 (y + 1) rows

end Sys2Proof.Machine
end

