-- ==== Sys2Proof/Machine/Flags.lean ====
section
/-! DEFINITION. The values VF receives (R22), and the one operation that writes a result and then the flag, the flag last
(R179). A flag is always 0x00 or 0x01. -/

namespace Sys2Proof.Machine

/-- A flag as the byte 0x00 or 0x01 (R22). -/
def flagByte (c : Bool) : Byte := if c then 1 else 0

/-- Write VF (R22). -/
def setFlag (s : State) (c : Bool) : State := writeV s vf (flagByte c)

/-- The result to `V[X]` first and the flag to VF last, so that with `X` = 15 the flag wins (R179; log entry 13). -/
def writeWithFlag (s : State) (x : Reg) (result : Byte) (c : Bool) : State := setFlag (writeV s x result) c

/-- `ADD Vx,Vy`: 1 if the unreduced sum exceeds 255 (R174). -/
def carryOf (a b : Byte) : Bool := decide (a.toNat + b.toNat > 255)

/-- `SUB`, `SUBN`: 1 if the minuend is at least the subtrahend (R175, R177). -/
def notBorrow (a b : Byte) : Bool := decide (a.toNat ≥ b.toNat)

/-- `SHR`: bit 0 of the source (R176). -/
def lsbOf (b : Byte) : Bool := b.getLsbD 0

/-- `SHL`: bit 7 of the source (R178). -/
def msbOf (b : Byte) : Bool := b.getLsbD 7

/-- `OR`, `AND`, `XOR`: the result, and VF forced to 0 afterwards when `Q_LOGIC_VF` is true (R171 to R173). -/
def writeLogic (s : State) (x : Reg) (result : Byte) : State :=
  if s.qLogicVF then writeWithFlag s x result false else writeV s x result

/-- One pixel of a draw: it collides if its cell is 1, and toggles it (R200, R204). -/
def plotCell (acc : Video × Bool) (k : Nat) : Video × Bool := (toggleCell acc.1 k, acc.2 || cellOf acc.1 k)

/-- A whole draw: the framebuffer after it and the collision flag, 0 before the loop (R200, R204). -/
def plot (video : Video) (cells : List Nat) : Video × Bool := cells.foldl plotCell (video, false)

end Sys2Proof.Machine
end

