-- ==== Sys2Proof/Machine/Alu.lean ====
section
/-! DEFINITION. Family 8: register-to-register operations (R170 to R181). Every source is read from the state at the start of
the instruction (R180); the flag is written last (R179). -/

namespace Sys2Proof.Machine

/-- `LD Vx,Vy` (R170). -/
def execLdVxVy (x y : Reg) (s : State) : Result := .next (advance (writeV s x (readV s y)))

/-- `OR Vx,Vy` (R171). -/
def execOrVxVy (x y : Reg) (s : State) : Result := .next (advance (writeLogic s x (readV s x ||| readV s y)))

/-- `AND Vx,Vy` (R172). -/
def execAndVxVy (x y : Reg) (s : State) : Result := .next (advance (writeLogic s x (readV s x &&& readV s y)))

/-- `XOR Vx,Vy` (R173). -/
def execXorVxVy (x y : Reg) (s : State) : Result := .next (advance (writeLogic s x (readV s x ^^^ readV s y)))

/-- `ADD Vx,Vy` (R174). -/
def execAddVxVy (x y : Reg) (s : State) : Result :=
  .next (advance (writeWithFlag s x (readV s x + readV s y) (carryOf (readV s x) (readV s y))))

/-- `SUB Vx,Vy` (R175): VX - VY. -/
def execSubVxVy (x y : Reg) (s : State) : Result :=
  .next (advance (writeWithFlag s x (readV s x - readV s y) (notBorrow (readV s x) (readV s y))))

/-- `SHR Vx{,Vy}` (R176). -/
def execShrVxVy (x y : Reg) (s : State) : Result :=
  .next (advance (writeWithFlag s x (shiftSource s x y >>> 1) (lsbOf (shiftSource s x y))))

/-- `SUBN Vx,Vy` (R177): VY - VX. -/
def execSubnVxVy (x y : Reg) (s : State) : Result :=
  .next (advance (writeWithFlag s x (readV s y - readV s x) (notBorrow (readV s y) (readV s x))))

/-- `SHL Vx{,Vy}` (R178). -/
def execShlVxVy (x y : Reg) (s : State) : Result :=
  .next (advance (writeWithFlag s x (shiftSource s x y <<< 1) (msbOf (shiftSource s x y))))

end Sys2Proof.Machine
end

