-- ==== Sys2Proof/Machine/Draw.lean ====
section
/-! DEFINITION. Family D: draw sprite (R200 to R206). -/

namespace Sys2Proof.Machine

/-- The framebuffer and the collision flag a draw of `n` rows leaves, with VX, VY and `I` sampled from the state at the start
(R205). -/
def drawSprite (s : State) (x y : Reg) (n : Nibble) : Video × Bool :=
  plot s.video (spriteCells (readV s x).toNat (readV s y).toNat (loadBytes s (indexAddr s 0) n.toNat))

/-- `DRW Vx,Vy,n` (R200): all addresses checked first (R206), VF written last, also when nothing is drawn. -/
def execDrwVxVyN (x y : Reg) (n : Nibble) (s : State) : Result :=
  withRange (indexAddr s 0) n.toNat
    (.next (advance (setFlag { s with video := (drawSprite s x y n).1 } (drawSprite s x y n).2)))

end Sys2Proof.Machine
end

