-- ==== Sys2Proof/Machine/Flow.lean ====
section
/-! DEFINITION. Families 0, 1, 2: clear screen, return, jump, call (R140 to R143). -/

namespace Sys2Proof.Machine

/-- `CLS` (R140). -/
def execCls (s : State) : Result := .next (advance { s with video := clearVideo })

/-- `RET` (R141): the popped value is the address of the `CALL`, and 2 is added to it. -/
def execRet (s : State) : Result :=
  if s.sp = 0 then raise (.stackUnderflow s.pc)
  else .next (setPc (popStack s) (topOfStack s + 2))

/-- `JP nnn` (R142): no trailing +2, no check of the target. -/
def execJp (nnn : Addr12) (s : State) : Result := .next (setPc s (zextAddr nnn))

/-- `CALL nnn` (R143): what is pushed is the address of the `CALL` itself. -/
def execCall (nnn : Addr12) (s : State) : Result :=
  if s.sp = 15 then raise (.stackOverflow s.pc)
  else .next (setPc (pushStack s s.pc) (zextAddr nnn))

end Sys2Proof.Machine
end

