-- ==== Sys2Proof/Machine/Immediate.lean ====
section
/-! DEFINITION. Families 6, 7: load immediate, add immediate (R160, R161). -/

namespace Sys2Proof.Machine

/-- `LD Vx,kk` (R160). -/
def execLdVxKk (x : Reg) (kk : Byte) (s : State) : Result := .next (advance (writeV s x kk))

/-- `ADD Vx,kk` (R161): modulo 256, no flag. -/
def execAddVxKk (x : Reg) (kk : Byte) (s : State) : Result := .next (advance (writeV s x (readV s x + kk)))

end Sys2Proof.Machine
end

