-- ==== Sys2Proof/Machine/IndexJumpRandom.lean ====
section
/-! DEFINITION. Families A, B, C: set index, jump with offset, random (R190 to R192). -/

namespace Sys2Proof.Machine

/-- `LD I,nnn` (R190). -/
def execLdINnn (nnn : Addr12) (s : State) : Result := .next (advance { s with i := zextAddr nnn })

/-- `JP V0,nnn` (R191): the sum is not masked to 12 bits. -/
def execJpV0Nnn (nnn : Addr12) (s : State) : Result := .next (setPc s (offsetTarget s nnn))

/-- `RND Vx,kk` (R192): exactly one draw, whatever `kk` is. -/
def execRndVxKk (x : Reg) (kk : Byte) (s : State) : Result :=
  .next (advance (writeV (drawRandom s).2 x ((drawRandom s).1 &&& kk)))

end Sys2Proof.Machine
end

