-- ==== Sys2Proof/Machine/Keypad.lean ====
section
/-! DEFINITION. Family E and FX0A: the keypad instructions (R210 to R214). -/

namespace Sys2Proof.Machine

/-- Run `k` when the key number is 0..15, else raise `KeyIndexFault`; the number is not masked (R213). -/
def withKey (b : Byte) (k : Result) : Result := if b.toNat > 15 then raise (.keyIndexFault b) else k

/-- `SKP Vx` (R210). -/
def execSkpVx (x : Reg) (s : State) : Result :=
  withKey (readV s x) (.next (skipIf (keyDown s (readV s x).toNat) s))

/-- `SKNP Vx` (R211). -/
def execSknpVx (x : Reg) (s : State) : Result :=
  withKey (readV s x) (.next (skipIf (!keyDown s (readV s x).toNat) s))

/-- The keys latched so far together with those down now (R212: `L`). -/
def latchedKeys (s : State) : Word := s.keylatch ||| s.keypad

/-- The keys latched and now up (R212: `released`). -/
def releasedKeys (s : State) : Word := latchedKeys s &&& ~~~s.keypad

/-- The least key of a mask, scanning 0, 1, ..., 15 (R214). -/
def lowestKey (mask : Word) : Option Nat := (List.range 16).find? fun k => mask.getLsbD k

/-- `LD Vx,K`, one polling pass (R212): without a release the latch grows and `pc` stays; with one the lowest released key is
reported, the latch is cleared and `pc` advances. -/
def execLdVxK (x : Reg) (s : State) : Result :=
  match lowestKey (releasedKeys s) with
  | none => .next { s with keylatch := latchedKeys s }
  | some k => .next (advance (writeV { s with keylatch := 0 } x (BitVec.ofNat 8 k)))

end Sys2Proof.Machine
end

