-- ==== Sys2Proof/Machine/Skip.lean ====
section
/-! DEFINITION. Families 3, 4, 5, 9: conditional skips on registers (R150 to R153). -/

namespace Sys2Proof.Machine

/-- `SE Vx,kk` (R150). -/
def execSeVxKk (x : Reg) (kk : Byte) (s : State) : Result := .next (skipIf (readV s x == kk) s)

/-- `SNE Vx,kk` (R151). -/
def execSneVxKk (x : Reg) (kk : Byte) (s : State) : Result := .next (skipIf (readV s x != kk) s)

/-- `SE Vx,Vy` (R152). -/
def execSeVxVy (x y : Reg) (s : State) : Result := .next (skipIf (readV s x == readV s y) s)

/-- `SNE Vx,Vy` (R153). -/
def execSneVxVy (x y : Reg) (s : State) : Result := .next (skipIf (readV s x != readV s y) s)

end Sys2Proof.Machine
end

