-- ==== Sys2Proof/Machine/TimerMemory.lean ====
section
/-! DEFINITION. Family F: timers, index arithmetic, font, BCD, block store and load (R220 to R227). None of these changes `I`
but `ADD I,Vx` and `LD F,Vx`; none writes VF as a flag. -/

namespace Sys2Proof.Machine

/-- `LD Vx,DT` (R220). -/
def execLdVxDt (x : Reg) (s : State) : Result := .next (advance (writeV s x s.dt))

/-- `LD DT,Vx` (R221). -/
def execLdDtVx (x : Reg) (s : State) : Result := .next (advance { s with dt := readV s x })

/-- `LD ST,Vx` (R222): no output, also when 0 is written over a nonzero `ST`. -/
def execLdStVx (x : Reg) (s : State) : Result := .next (advance { s with st := readV s x })

/-- `ADD I,Vx` (R223): 16 bits, no flag. -/
def execAddIVx (x : Reg) (s : State) : Result := .next (advance { s with i := s.i + zextByte (readV s x) })

/-- `LD F,Vx` (R224). -/
def execLdFVx (x : Reg) (s : State) : Result := .next (advance { s with i := glyphAddr (readV s x) })

/-- `LD B,Vx` (R225). -/
def execLdBVx (x : Reg) (s : State) : Result :=
  withRange (indexAddr s 0) 3 (.next (advance (storeBytes s (indexAddr s 0) (bcdDigits (readV s x)))))

/-- `LD [I],Vx` (R226). -/
def execLdMemVx (x : Reg) (s : State) : Result :=
  withRange (indexAddr s 0) (x.val + 1) (.next (advance (storeBytes s (indexAddr s 0) (registersTo s x))))

/-- `LD Vx,[I]` (R227). -/
def execLdVxMem (x : Reg) (s : State) : Result :=
  withRange (indexAddr s 0) (x.val + 1) (.next (advance (loadRegisters s (indexAddr s 0) x)))

end Sys2Proof.Machine
end

