-- ==== Sys2Proof/Syntax.lean ====
section
/-! DEFINITION. The 34 instructions of the opcode map (R95), one constructor per row, in the row order. Register operands are
numbers 0..15 and immediates have the widths of R92, so no ill-formed operand can be written down; what can be ill-formed, a
raw word or a program image, is checked in `WellFormed.lean`. -/

namespace Sys2Proof

/-- An instruction (R95). The operand order is that of the mnemonic, the destination first (R100). -/
inductive Instr where
  /-- `CLS`, 00E0 (R140). -/
  | cls
  /-- `RET`, 00EE (R141). -/
  | ret
  /-- `JP nnn`, 1NNN (R142). -/
  | jp (nnn : Addr12)
  /-- `CALL nnn`, 2NNN (R143). -/
  | call (nnn : Addr12)
  /-- `SE Vx,kk`, 3XKK (R150). -/
  | seVxKk (x : Reg) (kk : Byte)
  /-- `SNE Vx,kk`, 4XKK (R151). -/
  | sneVxKk (x : Reg) (kk : Byte)
  /-- `SE Vx,Vy`, 5XY0 (R152). -/
  | seVxVy (x y : Reg)
  /-- `LD Vx,kk`, 6XKK (R160). -/
  | ldVxKk (x : Reg) (kk : Byte)
  /-- `ADD Vx,kk`, 7XKK (R161). -/
  | addVxKk (x : Reg) (kk : Byte)
  /-- `LD Vx,Vy`, 8XY0 (R170). -/
  | ldVxVy (x y : Reg)
  /-- `OR Vx,Vy`, 8XY1 (R171). -/
  | orVxVy (x y : Reg)
  /-- `AND Vx,Vy`, 8XY2 (R172). -/
  | andVxVy (x y : Reg)
  /-- `XOR Vx,Vy`, 8XY3 (R173). -/
  | xorVxVy (x y : Reg)
  /-- `ADD Vx,Vy`, 8XY4 (R174). -/
  | addVxVy (x y : Reg)
  /-- `SUB Vx,Vy`, 8XY5 (R175). -/
  | subVxVy (x y : Reg)
  /-- `SHR Vx{,Vy}`, 8XY6 (R176). -/
  | shrVxVy (x y : Reg)
  /-- `SUBN Vx,Vy`, 8XY7 (R177). -/
  | subnVxVy (x y : Reg)
  /-- `SHL Vx{,Vy}`, 8XYE (R178). -/
  | shlVxVy (x y : Reg)
  /-- `SNE Vx,Vy`, 9XY0 (R153). -/
  | sneVxVy (x y : Reg)
  /-- `LD I,nnn`, ANNN (R190). -/
  | ldINnn (nnn : Addr12)
  /-- `JP V0,nnn`, BNNN (R191). -/
  | jpV0Nnn (nnn : Addr12)
  /-- `RND Vx,kk`, CXKK (R192). -/
  | rndVxKk (x : Reg) (kk : Byte)
  /-- `DRW Vx,Vy,n`, DXYN (R200). -/
  | drwVxVyN (x y : Reg) (n : Nibble)
  /-- `SKP Vx`, EX9E (R210). -/
  | skpVx (x : Reg)
  /-- `SKNP Vx`, EXA1 (R211). -/
  | sknpVx (x : Reg)
  /-- `LD Vx,DT`, FX07 (R220). -/
  | ldVxDt (x : Reg)
  /-- `LD Vx,K`, FX0A (R212). -/
  | ldVxK (x : Reg)
  /-- `LD DT,Vx`, FX15 (R221). -/
  | ldDtVx (x : Reg)
  /-- `LD ST,Vx`, FX18 (R222). -/
  | ldStVx (x : Reg)
  /-- `ADD I,Vx`, FX1E (R223). -/
  | addIVx (x : Reg)
  /-- `LD F,Vx`, FX29 (R224). -/
  | ldFVx (x : Reg)
  /-- `LD B,Vx`, FX33 (R225). -/
  | ldBVx (x : Reg)
  /-- `LD [I],Vx`, FX55 (R226). -/
  | ldMemVx (x : Reg)
  /-- `LD Vx,[I]`, FX65 (R227). -/
  | ldVxMem (x : Reg)
  deriving DecidableEq, Repr

end Sys2Proof
end

