-- ==== Sys2Proof/Decode.lean ====
section
/-! DEFINITION. The decoder and the encoder (R90 to R99), written from the opcode map R95 and the selector table R94. The
numerals are the conventional CHIP-8 assignment the spec adopts (G1, D1; log entry 6). -/

namespace Sys2Proof

/-- `P`, bits 15:12 (R92). -/
def fieldP (w : Word) : Nibble := w.extractLsb' 12 4

/-- `X`, bits 11:8, as a register number (R92). -/
def fieldX (w : Word) : Reg := (w.extractLsb' 8 4).toFin

/-- `Y`, bits 7:4, as a register number (R92). -/
def fieldY (w : Word) : Reg := (w.extractLsb' 4 4).toFin

/-- `N`, bits 3:0 (R92). -/
def fieldN (w : Word) : Nibble := w.extractLsb' 0 4

/-- `KK`, bits 7:0 (R92). -/
def fieldKK (w : Word) : Byte := w.extractLsb' 0 8

/-- `NNN`, bits 11:0 (R92). -/
def fieldNNN (w : Word) : Addr12 := w.extractLsb' 0 12

/-- Family 0: the selector is the whole of `NNN` (R94). -/
def decodeFamily0 (w : Word) : Option Instr :=
  match (fieldNNN w).toNat with
  | 0x0E0 => some .cls
  | 0x0EE => some .ret
  | _ => none

/-- Families 5 and 9: the selector `N` must be 0 (R94). -/
def decodeN0 (w : Word) (i : Instr) : Option Instr :=
  match (fieldN w).toNat with
  | 0 => some i
  | _ => none

/-- Family 8: the selector is `N` (R94). -/
def decodeFamily8 (w : Word) : Option Instr :=
  match (fieldN w).toNat with
  | 0x0 => some (.ldVxVy (fieldX w) (fieldY w))
  | 0x1 => some (.orVxVy (fieldX w) (fieldY w))
  | 0x2 => some (.andVxVy (fieldX w) (fieldY w))
  | 0x3 => some (.xorVxVy (fieldX w) (fieldY w))
  | 0x4 => some (.addVxVy (fieldX w) (fieldY w))
  | 0x5 => some (.subVxVy (fieldX w) (fieldY w))
  | 0x6 => some (.shrVxVy (fieldX w) (fieldY w))
  | 0x7 => some (.subnVxVy (fieldX w) (fieldY w))
  | 0xE => some (.shlVxVy (fieldX w) (fieldY w))
  | _ => none

/-- Family E: the selector is `KK` (R94). -/
def decodeFamilyE (w : Word) : Option Instr :=
  match (fieldKK w).toNat with
  | 0x9E => some (.skpVx (fieldX w))
  | 0xA1 => some (.sknpVx (fieldX w))
  | _ => none

/-- Family F: the selector is `KK` (R94). -/
def decodeFamilyF (w : Word) : Option Instr :=
  match (fieldKK w).toNat with
  | 0x07 => some (.ldVxDt (fieldX w))
  | 0x0A => some (.ldVxK (fieldX w))
  | 0x15 => some (.ldDtVx (fieldX w))
  | 0x18 => some (.ldStVx (fieldX w))
  | 0x1E => some (.addIVx (fieldX w))
  | 0x29 => some (.ldFVx (fieldX w))
  | 0x33 => some (.ldBVx (fieldX w))
  | 0x55 => some (.ldMemVx (fieldX w))
  | 0x65 => some (.ldVxMem (fieldX w))
  | _ => none

/-- R97, R122: the instruction an opcode is, a function of the word alone; `none` for an unknown opcode (R98). `P` selects the
family (R91), the selector of R94 the instruction in it. -/
def decodeWord (w : Word) : Option Instr :=
  match (fieldP w).toNat with
  | 0x0 => decodeFamily0 w
  | 0x1 => some (.jp (fieldNNN w))
  | 0x2 => some (.call (fieldNNN w))
  | 0x3 => some (.seVxKk (fieldX w) (fieldKK w))
  | 0x4 => some (.sneVxKk (fieldX w) (fieldKK w))
  | 0x5 => decodeN0 w (.seVxVy (fieldX w) (fieldY w))
  | 0x6 => some (.ldVxKk (fieldX w) (fieldKK w))
  | 0x7 => some (.addVxKk (fieldX w) (fieldKK w))
  | 0x8 => decodeFamily8 w
  | 0x9 => decodeN0 w (.sneVxVy (fieldX w) (fieldY w))
  | 0xA => some (.ldINnn (fieldNNN w))
  | 0xB => some (.jpV0Nnn (fieldNNN w))
  | 0xC => some (.rndVxKk (fieldX w) (fieldKK w))
  | 0xD => some (.drwVxVyN (fieldX w) (fieldY w) (fieldN w))
  | 0xE => decodeFamilyE w
  | 0xF => decodeFamilyF w
  | _ => none

/-- Why bytes are no instruction. -/
inductive DecodeError where
  /-- The word matches no row of R95 (R98). -/
  | unknownOpcode (op : Word)
  /-- Fewer than two bytes: an instruction is two (R90). -/
  | truncated
  deriving DecidableEq, Repr

/-- The word two bytes make, the first the high half (R66). -/
def wordOfBytes (hi lo : Byte) : Word := hi ++ lo

/-- Decoding from bytes, high byte first (R66, R90), with the bytes that follow; total, and refused by name. -/
def decode : List Byte → Except DecodeError (Instr × List Byte)
  | hi :: lo :: rest =>
    match decodeWord (wordOfBytes hi lo) with
    | some i => .ok (i, rest)
    | none => .error (.unknownOpcode (wordOfBytes hi lo))
  | _ => .error .truncated

/-- A register number as its 4-bit field (R92). -/
def regField (x : Reg) : Nibble := BitVec.ofFin x

/-- Format `PNNN` (R91). -/
def wordPNNN (p : Nibble) (nnn : Addr12) : Word := p ++ nnn

/-- Format `PXKK` (R91). -/
def wordPXKK (p : Nibble) (x : Reg) (kk : Byte) : Word := (p ++ regField x ++ kk : BitVec (4 + 4 + 8))

/-- Format `PXYN` (R91). -/
def wordPXYN (p : Nibble) (x y : Reg) (n : Nibble) : Word :=
  (p ++ regField x ++ regField y ++ n : BitVec (4 + 4 + 4 + 4))

/-- The word of an instruction, row by row of R95. -/
def encode : Instr → Word
  | .cls => wordPNNN 0x0 0x0E0
  | .ret => wordPNNN 0x0 0x0EE
  | .jp nnn => wordPNNN 0x1 nnn
  | .call nnn => wordPNNN 0x2 nnn
  | .seVxKk x kk => wordPXKK 0x3 x kk
  | .sneVxKk x kk => wordPXKK 0x4 x kk
  | .seVxVy x y => wordPXYN 0x5 x y 0x0
  | .ldVxKk x kk => wordPXKK 0x6 x kk
  | .addVxKk x kk => wordPXKK 0x7 x kk
  | .ldVxVy x y => wordPXYN 0x8 x y 0x0
  | .orVxVy x y => wordPXYN 0x8 x y 0x1
  | .andVxVy x y => wordPXYN 0x8 x y 0x2
  | .xorVxVy x y => wordPXYN 0x8 x y 0x3
  | .addVxVy x y => wordPXYN 0x8 x y 0x4
  | .subVxVy x y => wordPXYN 0x8 x y 0x5
  | .shrVxVy x y => wordPXYN 0x8 x y 0x6
  | .subnVxVy x y => wordPXYN 0x8 x y 0x7
  | .shlVxVy x y => wordPXYN 0x8 x y 0xE
  | .sneVxVy x y => wordPXYN 0x9 x y 0x0
  | .ldINnn nnn => wordPNNN 0xA nnn
  | .jpV0Nnn nnn => wordPNNN 0xB nnn
  | .rndVxKk x kk => wordPXKK 0xC x kk
  | .drwVxVyN x y n => wordPXYN 0xD x y n
  | .skpVx x => wordPXKK 0xE x 0x9E
  | .sknpVx x => wordPXKK 0xE x 0xA1
  | .ldVxDt x => wordPXKK 0xF x 0x07
  | .ldVxK x => wordPXKK 0xF x 0x0A
  | .ldDtVx x => wordPXKK 0xF x 0x15
  | .ldStVx x => wordPXKK 0xF x 0x18
  | .addIVx x => wordPXKK 0xF x 0x1E
  | .ldFVx x => wordPXKK 0xF x 0x29
  | .ldBVx x => wordPXKK 0xF x 0x33
  | .ldMemVx x => wordPXKK 0xF x 0x55
  | .ldVxMem x => wordPXKK 0xF x 0x65

/-- The high byte of a word, the one stored at the lower address (R66). -/
def highByte (w : Word) : Byte := w.extractLsb' 8 8

/-- The low byte of a word (R66). -/
def lowByte (w : Word) : Byte := w.extractLsb' 0 8

/-- A word as it lies in memory (R66). -/
def bytesOfWord (w : Word) : List Byte := [highByte w, lowByte w]

/-- An instruction as it lies in memory (R66, R90). -/
def encodeBytes (i : Instr) : List Byte := bytesOfWord (encode i)

/-- The instruction the decoder reads from an instruction whose bits are `w`, numbered as `spec/opcode_table.json` numbers
them (bit 0 the least significant of the one 16-bit word). Bits at and above `nbits` are 0. -/
def decodeTableWord (nbits w : Nat) : Option Instr :=
  match decode (bytesOfWord (BitVec.ofNat 16 (w % 2 ^ nbits))) with
  | .ok (i, _) => some i
  | .error _ => none

/-- One row of the opcode map as R95 writes it: an opcode is this instruction exactly when `op &&& mask = pat`. -/
structure OpcodeRow where
  /-- The table's mnemonic. -/
  mnemonic : String
  /-- The column "match". -/
  pat : Word
  /-- The column "mask". -/
  mask : Word
  deriving DecidableEq, Repr

/-- The row of R95 an instruction belongs to, transcribed from the table (a second source beside `decodeWord` and `encode`). -/
def opcodeRow : Instr → OpcodeRow
  | .cls => ⟨"CLS", 0x00E0, 0xFFFF⟩
  | .ret => ⟨"RET", 0x00EE, 0xFFFF⟩
  | .jp _ => ⟨"JP_nnn", 0x1000, 0xF000⟩
  | .call _ => ⟨"CALL_nnn", 0x2000, 0xF000⟩
  | .seVxKk _ _ => ⟨"SE_Vx_kk", 0x3000, 0xF000⟩
  | .sneVxKk _ _ => ⟨"SNE_Vx_kk", 0x4000, 0xF000⟩
  | .seVxVy _ _ => ⟨"SE_Vx_Vy", 0x5000, 0xF00F⟩
  | .ldVxKk _ _ => ⟨"LD_Vx_kk", 0x6000, 0xF000⟩
  | .addVxKk _ _ => ⟨"ADD_Vx_kk", 0x7000, 0xF000⟩
  | .ldVxVy _ _ => ⟨"LD_Vx_Vy", 0x8000, 0xF00F⟩
  | .orVxVy _ _ => ⟨"OR_Vx_Vy", 0x8001, 0xF00F⟩
  | .andVxVy _ _ => ⟨"AND_Vx_Vy", 0x8002, 0xF00F⟩
  | .xorVxVy _ _ => ⟨"XOR_Vx_Vy", 0x8003, 0xF00F⟩
  | .addVxVy _ _ => ⟨"ADD_Vx_Vy", 0x8004, 0xF00F⟩
  | .subVxVy _ _ => ⟨"SUB_Vx_Vy", 0x8005, 0xF00F⟩
  | .shrVxVy _ _ => ⟨"SHR_Vx__Vy", 0x8006, 0xF00F⟩
  | .subnVxVy _ _ => ⟨"SUBN_Vx_Vy", 0x8007, 0xF00F⟩
  | .shlVxVy _ _ => ⟨"SHL_Vx__Vy", 0x800E, 0xF00F⟩
  | .sneVxVy _ _ => ⟨"SNE_Vx_Vy", 0x9000, 0xF00F⟩
  | .ldINnn _ => ⟨"LD_I_nnn", 0xA000, 0xF000⟩
  | .jpV0Nnn _ => ⟨"JP_V0_nnn", 0xB000, 0xF000⟩
  | .rndVxKk _ _ => ⟨"RND_Vx_kk", 0xC000, 0xF000⟩
  | .drwVxVyN _ _ _ => ⟨"DRW_Vx_Vy_n", 0xD000, 0xF000⟩
  | .skpVx _ => ⟨"SKP_Vx", 0xE09E, 0xF0FF⟩
  | .sknpVx _ => ⟨"SKNP_Vx", 0xE0A1, 0xF0FF⟩
  | .ldVxDt _ => ⟨"LD_Vx_DT", 0xF007, 0xF0FF⟩
  | .ldVxK _ => ⟨"LD_Vx_K", 0xF00A, 0xF0FF⟩
  | .ldDtVx _ => ⟨"LD_DT_Vx", 0xF015, 0xF0FF⟩
  | .ldStVx _ => ⟨"LD_ST_Vx", 0xF018, 0xF0FF⟩
  | .addIVx _ => ⟨"ADD_I_Vx", 0xF01E, 0xF0FF⟩
  | .ldFVx _ => ⟨"LD_F_Vx", 0xF029, 0xF0FF⟩
  | .ldBVx _ => ⟨"LD_B_Vx", 0xF033, 0xF0FF⟩
  | .ldMemVx _ => ⟨"LD__I__Vx", 0xF055, 0xF0FF⟩
  | .ldVxMem _ => ⟨"LD_Vx__I", 0xF065, 0xF0FF⟩

end Sys2Proof
end

