-- ==== Sys2Proof/Machine/Fetch.lean ====
section
/-! DEFINITION. Fetch and decode of one `EXECUTE` event (R121, R122): the address check first, then the word, then the row it
matches (R125). -/

namespace Sys2Proof.Machine

/-- The word at `pc`, high byte first (R66, R121); both bytes must lie in `MEM`. -/
def fetchWord (s : State) : Except Fault Word :=
  match rangeFault s.pc.toNat 2 with
  | some f => .error f
  | none => .ok (wordOfBytes (byteAt s s.pc.toNat) (byteAt s (s.pc.toNat + 1)))

/-- The instruction at `pc`, or the fault of the fetch or of the decode (R121, R122, R241). -/
def fetchInstr (s : State) : Except Fault Instr :=
  match fetchWord s with
  | .error f => .error f
  | .ok w =>
    match decodeWord w with
    | some i => .ok i
    | none => .error (.unknownOpcode w s.pc)

/-- A word laid into memory at an address, high byte first (R66). -/
def storeWord (s : State) (a : Nat) (w : Word) : State := storeBytes s a (bytesOfWord w)

end Sys2Proof.Machine
end

