-- ==== Sys2Proof/Machine/Step.lean ====
section
/-! DEFINITION. The step: one `EXECUTE` event (R120). -/

namespace Sys2Proof.Machine

/-- R120: fetch, decode, run the instruction's rule; the first fault ends the event with the state unchanged (R127). -/
def step (s : State) : Host.Outcome State Fault Refusal :=
  match fetchInstr s with
  | .ok i => exec i s
  | .error f => raise f

/-- `s` with the instruction whose bits are `w` stored where `step` fetches its next one, so that the next step runs it. It
stands for a `LOAD` made from outside (log entry 8). Where `pc` is above 0xFFE no word can be fetched at all, and `pc` is moved to
the load address (log entry 33). -/
def State.withFetchWord (s : State) (nbits w : Nat) : State :=
  if s.pc.toNat ≤ 0xFFE then storeWord s s.pc.toNat (BitVec.ofNat 16 (w % 2 ^ nbits))
  else storeWord (setPc s 0x200) 0x200 (BitVec.ofNat 16 (w % 2 ^ nbits))

end Sys2Proof.Machine
end

