-- ==== Sys2Proof/WellFormed.lean ====
section
/-! DEFINITION. The checks on what can be ill-formed. An `Instr` cannot (its operand types carry R92's widths); a raw word is
ill-formed when it falls in one of the six classes of unknown opcodes of R98, a program image when it is longer than R283
allows. The classes are written from R98's own table, independently of the decoder, so that the two can be held against each
other. -/

namespace Sys2Proof

/-- R98, first row: `0NNN` with `NNN` not 0x0E0 and not 0x0EE; the conventional SYS call is among them (R96). -/
def unknownFamily0 (w : Word) : Bool :=
  w.toNat / 4096 == 0 && w.toNat % 4096 != 0x0E0 && w.toNat % 4096 != 0x0EE

/-- R98, second and fourth row: `5XYN` and `9XYN` with `N` not 0. -/
def unknownFamily59 (w : Word) : Bool :=
  (w.toNat / 4096 == 5 || w.toNat / 4096 == 9) && w.toNat % 16 != 0

/-- R98, third row: `8XYN` with `N` in 8, 9, 0xA, 0xB, 0xC, 0xD, 0xF. -/
def unknownFamily8 (w : Word) : Bool :=
  w.toNat / 4096 == 8 && [8, 9, 0xA, 0xB, 0xC, 0xD, 0xF].contains (w.toNat % 16)

/-- R98, fifth row: `EXKK` with `KK` not 0x9E and not 0xA1. -/
def unknownFamilyE (w : Word) : Bool :=
  w.toNat / 4096 == 14 && !([0x9E, 0xA1].contains (w.toNat % 256))

/-- R98, sixth row: `FXKK` with `KK` outside the nine selectors of family F. -/
def unknownFamilyF (w : Word) : Bool :=
  w.toNat / 4096 == 15 && !([0x07, 0x0A, 0x15, 0x18, 0x1E, 0x29, 0x33, 0x55, 0x65].contains (w.toNat % 256))

/-- R98: the unknown words. -/
def unknownWord (w : Word) : Bool :=
  unknownFamily0 w || unknownFamily59 w || unknownFamily8 w || unknownFamilyE w || unknownFamilyF w

/-- A word is well-formed when it is no unknown opcode (R98). -/
def wellFormedWord (w : Word) : Bool := !unknownWord w

/-- A program image fits when it has at most 3584 bytes (R283). -/
def wellFormedImage (bytes : List Byte) : Bool := decide (bytes.length ≤ Config.maxProgram)

end Sys2Proof
end

