-- ==== Sys2Proof/Machine/Events.lean ====
section
/-! DEFINITION. The events of every agent (R5) and what each does to the state and answers. An event is atomic (R6); any list of
events in any order is a run of the machine (`sendAll`). -/

namespace Sys2Proof.Machine

/-- The events of R5. -/
inductive Event where
  /-- `EXECUTE`: one instruction, or one polling pass of `LD Vx,K` (R120). -/
  | execute
  /-- `TIMER_TICK` (R256). -/
  | timerTick
  /-- `INITIALIZE` (R281). -/
  | initialise
  /-- `RESET` (R282). -/
  | reset
  /-- `LOAD(bytes)` (R283). -/
  | load (bytes : List Byte)
  /-- `KEY_SET(k)` (R260). -/
  | keySet (k : Reg)
  /-- `KEY_CLEAR(k)` (R260). -/
  | keyClear (k : Reg)
  /-- `SET_QUIRKS(a, b)` (R263). -/
  | setQuirks (shiftX logicVF : Bool)
  /-- `VIDEO_READ` (R262). -/
  | videoRead
  deriving DecidableEq, Repr

/-- What an event answers: its result (R7), or the output it makes (R257, R262). -/
inductive Reply where
  /-- Result ok. -/
  | ok
  /-- Result ok-waiting: `LD Vx,K` saw no release; to the driver this is ok (R7). -/
  | waiting
  /-- Result ok, and `BEEP_STOP` was emitted once (R257). -/
  | beepStop
  /-- The 2048 cells (R262). -/
  | frame (video : Video)
  /-- A fault; the state is unchanged (R246). -/
  | fault (f : Fault)
  /-- The model's own refusal; no instruction is refused. -/
  | refused (r : Refusal)
  deriving DecidableEq, Repr

/-- Whether this `EXECUTE` is a pass of `LD Vx,K` that sees no release (R7, R212). -/
def waitingPass (s : State) : Bool :=
  match fetchInstr s with
  | .ok (.ldVxK _) => (lowestKey (releasedKeys s)).isNone
  | _ => false

/-- The `EXECUTE` event (R120, R127). -/
def execute (s : State) : State × Reply :=
  match step s with
  | .next t => (t, if waitingPass s then .waiting else .ok)
  | .fault f => (s, .fault f)
  | .refused r => (s, .refused r)

/-- A timer one step down, floor 0 (R28, R29). -/
def countDown (b : Byte) : Byte := if b = 0 then 0 else b - 1

/-- The `TIMER_TICK` event (R256): `BEEP_STOP` exactly when `ST` goes from 1 to 0 (R257). -/
def timerTick (s : State) : State × Reply :=
  ({ s with dt := countDown s.dt, st := countDown s.st }, if s.st = 1 then .beepStop else .ok)

/-- The `RESET` event (R282): everything but `MEM`, no `BEEP_STOP`. -/
def hostReset (q : QuirkDefaults) (s : State) : State := State.resetWith q s.mem s.draws

/-- The `INITIALIZE` event (R281): memory zeroed, the font written, then a reset. -/
def hostInitialise (q : QuirkDefaults) (s : State) : State := hostReset q { s with mem := Memory.initial }

/-- The `LOAD(bytes)` event (R283): the check precedes the copy; nothing but `MEM` from 0x200 is written. -/
def hostLoad (bytes : List Byte) (s : State) : Result :=
  if wellFormedImage bytes then .next (storeBytes s Config.loadBase bytes) else raise .capacityError

/-- The `KEY_SET(k)` event (R260). -/
def keySet (k : Reg) (s : State) : State := { s with keypad := s.keypad ||| BitVec.twoPow 16 k.val }

/-- The `KEY_CLEAR(k)` event (R260). -/
def keyClear (k : Reg) (s : State) : State := { s with keypad := s.keypad &&& ~~~BitVec.twoPow 16 k.val }

/-- The `SET_QUIRKS(a, b)` event (R263). -/
def setQuirks (shiftX logicVF : Bool) (s : State) : State := { s with qShiftX := shiftX, qLogicVF := logicVF }

/-- What an outcome is to the sender: the new state and ok, or the old state and the fault (R246). -/
def replyOf (s : State) : Result → State × Reply
  | .next t => (t, .ok)
  | .fault f => (s, .fault f)
  | .refused r => (s, .refused r)

/-- One event (R5), under the quirk defaults of this machine (R34). -/
def send (q : QuirkDefaults) (e : Event) (s : State) : State × Reply :=
  match e with
  | .execute => execute s
  | .timerTick => timerTick s
  | .initialise => (hostInitialise q s, .ok)
  | .reset => (hostReset q s, .ok)
  | .load bytes => replyOf s (hostLoad bytes s)
  | .keySet k => (keySet k s, .ok)
  | .keyClear k => (keyClear k s, .ok)
  | .setQuirks a b => (setQuirks a b s, .ok)
  | .videoRead => (s, .frame s.video)

/-- Events one after another, in the order given (R6), and their replies. -/
def sendAll (q : QuirkDefaults) : List Event → State → State × List Reply
  | [], s => (s, [])
  | e :: es, s =>
    ((sendAll q es (send q e s).1).1, (send q e s).2 :: (sendAll q es (send q e s).1).2)

/-- The boot sequence of R285 up to the first `EXECUTE`: `INITIALIZE`, a `LOAD` that must succeed, and `SET_QUIRKS` when the
program needs other than the defaults. -/
def boot (q : QuirkDefaults) (image : List Byte) (quirks : Option (Bool × Bool)) (s : State) : Result :=
  match hostLoad image (hostInitialise q s), quirks with
  | .next t, some (a, b) => .next (setQuirks a b t)
  | r, _ => r

end Sys2Proof.Machine
end

