-- ==== Sys2Proof/Machine/Driver.lean ====
section
/-! DEFINITION. The driver's RUNNING and HALTED (R248): a state of the driver, which no field of the machine records. After an
`EXECUTE` that faults the driver sends no `EXECUTE` and no `TIMER_TICK` until a `RESET` or `INITIALIZE` (D6; log entry 28). -/

namespace Sys2Proof.Machine

/-- The machine together with its driver. -/
structure Driver where
  /-- The machine. -/
  core : State
  /-- Whether the run is faulted (R248). -/
  faulted : Bool
  deriving DecidableEq, Repr

/-- Whether a faulted driver holds this event back (R248). -/
def heldBack : Event → Bool
  | .execute => true
  | .timerTick => true
  | _ => false

/-- Whether the run is faulted after an event with this reply (R248, R251: a failed `LOAD` is not an instruction fault). -/
def faultedAfter (faulted : Bool) : Event → Reply → Bool
  | .execute, .fault _ => true
  | .initialise, _ => false
  | .reset, _ => false
  | _, _ => faulted

/-- One event the driver or the host sends; `none` when the driver is halted and holds it back. -/
def driverSend (q : QuirkDefaults) (e : Event) (d : Driver) : Option (Driver × Reply) :=
  if d.faulted && heldBack e then none
  else some (⟨(send q e d.core).1, faultedAfter d.faulted e (send q e d.core).2⟩, (send q e d.core).2)

end Sys2Proof.Machine
end

