-- ==== Sys2Proof/Safety.lean ====
section
/-! DEFINITION. What counts as a good state and a successful run, in the terms the claims use; and the
spec's own tables about all instructions at once, transcribed (R36, R124, R240), for the claims that hold `exec` against them. -/

namespace Sys2Proof.Machine

/-- The invariant of every run: memory is canonical and inside 0x000..0xFFF (R64), `STACK[0]` is never written (R26), every stack
entry is the address of a `CALL` that was fetched, so at most 0xFFE (R141), and `pc` never passes 0x10FE, the largest target of
`JP V0,nnn` (R24, R191). -/
abbrev RunInv (s : State) : Prop :=
  Memory.wf s.mem = true ∧ s.stack[(0 : Fin 16)] = 0 ∧ (∀ k : Fin 16, s.stack[k].toNat ≤ 0xFFE) ∧ s.pc.toNat ≤ 0x10FE

/-- The latch is nonzero only while a `LD Vx,K` is in progress (R33). -/
def LatchInUse (s : State) : Prop := s.keylatch ≠ 0 → ∃ x, fetchInstr s = .ok (.ldVxK x)

/-- The quiescent state of R296: the word at `pc` is a `JP` to `pc` itself. -/
def Quiescent (s : State) : Prop := ∃ nnn, fetchInstr s = .ok (.jp nnn) ∧ zextAddr nnn = s.pc

/-- No reply of a run is a fault or a refusal. -/
def faultFree (replies : List Reply) : Bool :=
  replies.all fun r => match r with
    | .fault _ => false
    | .refused _ => false
    | _ => true

/-- A run ends successfully when it reaches a quiescent state with no fault (R248, R296; log entry 32). -/
def EndsWell (q : QuirkDefaults) (es : List Event) (s : State) : Prop :=
  faultFree (sendAll q es s).2 = true ∧ Quiescent (sendAll q es s).1

/-! ### Frames -/

/-- The components of the state (R20), the two quirk flags as one, and the model's count of draws. -/
inductive Part where
  | v | i | pc | stack | sp | dt | st | keypad | keylatch | video | quirks | mem | draws
  deriving DecidableEq, Repr

/-- Two states agree on a component; memory byte by byte, registers and stack entry by entry. -/
def samePart (s t : State) : Part → Prop
  | .v => ∀ r, readV t r = readV s r
  | .i => t.i = s.i
  | .pc => t.pc = s.pc
  | .stack => ∀ k : Fin 16, t.stack[k] = s.stack[k]
  | .sp => t.sp = s.sp
  | .dt => t.dt = s.dt
  | .st => t.st = s.st
  | .keypad => t.keypad = s.keypad
  | .keylatch => t.keylatch = s.keylatch
  | .video => t.video = s.video
  | .quirks => t.qShiftX = s.qShiftX ∧ t.qLogicVF = s.qLogicVF
  | .mem => ∀ a, byteAt t a = byteAt s a
  | .draws => t.draws = s.draws

/-- `t` differs from `s` in the named components at most. -/
def SameBut (parts : List Part) (s t : State) : Prop := ∀ p, p ∉ parts → samePart s t p

/-- The components an instruction may write, the `w` entries of its row of the access table R36 (and, for `RND`, the model's
count of draws). -/
def writesOf : Instr → List Part
  | .cls => [.pc, .video]
  | .ret => [.pc, .sp]
  | .jp _ => [.pc]
  | .call _ => [.pc, .stack, .sp]
  | .seVxKk _ _ => [.pc]
  | .sneVxKk _ _ => [.pc]
  | .seVxVy _ _ => [.pc]
  | .ldVxKk _ _ => [.v, .pc]
  | .addVxKk _ _ => [.v, .pc]
  | .ldVxVy _ _ => [.v, .pc]
  | .orVxVy _ _ => [.v, .pc]
  | .andVxVy _ _ => [.v, .pc]
  | .xorVxVy _ _ => [.v, .pc]
  | .addVxVy _ _ => [.v, .pc]
  | .subVxVy _ _ => [.v, .pc]
  | .shrVxVy _ _ => [.v, .pc]
  | .subnVxVy _ _ => [.v, .pc]
  | .shlVxVy _ _ => [.v, .pc]
  | .sneVxVy _ _ => [.pc]
  | .ldINnn _ => [.pc, .i]
  | .jpV0Nnn _ => [.pc]
  | .rndVxKk _ _ => [.v, .pc, .draws]
  | .drwVxVyN _ _ _ => [.v, .pc, .video]
  | .skpVx _ => [.pc]
  | .sknpVx _ => [.pc]
  | .ldVxDt _ => [.v, .pc]
  | .ldVxK _ => [.v, .pc, .keylatch]
  | .ldDtVx _ => [.pc, .dt]
  | .ldStVx _ => [.pc, .st]
  | .addIVx _ => [.pc, .i]
  | .ldFVx _ => [.pc, .i]
  | .ldBVx _ => [.pc, .mem]
  | .ldMemVx _ => [.pc, .mem]
  | .ldVxMem _ => [.v, .pc]

/-! ### The program counter -/

/-- Where `pc` stands after a skip instruction whose condition is `c` (R124). -/
def skipPc (c : Bool) (s : State) : Word := if c then s.pc + 4 else s.pc + 2

/-- Where `pc` stands after each instruction, from the five classes of R124. -/
def nextPc (s : State) : Instr → Word
  | .jp nnn => nnn.setWidth 16
  | .call nnn => nnn.setWidth 16
  | .jpV0Nnn nnn => BitVec.ofNat 16 (nnn.toNat + (readV s 0).toNat)
  | .ret => s.stack[s.sp] + 2
  | .seVxKk x kk => skipPc (decide (readV s x = kk)) s
  | .sneVxKk x kk => skipPc (decide (readV s x ≠ kk)) s
  | .seVxVy x y => skipPc (decide (readV s x = readV s y)) s
  | .sneVxVy x y => skipPc (decide (readV s x ≠ readV s y)) s
  | .skpVx x => skipPc (s.keypad.getLsbD (readV s x).toNat) s
  | .sknpVx x => skipPc (!s.keypad.getLsbD (readV s x).toNat) s
  | .ldVxK _ => if (s.keylatch ||| s.keypad) &&& ~~~s.keypad = 0 then s.pc else s.pc + 2
  | .cls => s.pc + 2
  | .ldVxKk _ _ => s.pc + 2
  | .addVxKk _ _ => s.pc + 2
  | .ldVxVy _ _ => s.pc + 2
  | .orVxVy _ _ => s.pc + 2
  | .andVxVy _ _ => s.pc + 2
  | .xorVxVy _ _ => s.pc + 2
  | .addVxVy _ _ => s.pc + 2
  | .subVxVy _ _ => s.pc + 2
  | .shrVxVy _ _ => s.pc + 2
  | .subnVxVy _ _ => s.pc + 2
  | .shlVxVy _ _ => s.pc + 2
  | .ldINnn _ => s.pc + 2
  | .rndVxKk _ _ => s.pc + 2
  | .drwVxVyN _ _ _ => s.pc + 2
  | .ldVxDt _ => s.pc + 2
  | .ldDtVx _ => s.pc + 2
  | .ldStVx _ => s.pc + 2
  | .addIVx _ => s.pc + 2
  | .ldFVx _ => s.pc + 2
  | .ldBVx _ => s.pc + 2
  | .ldMemVx _ => s.pc + 2
  | .ldVxMem _ => s.pc + 2

/-! ### Faults -/

/-- The fault of an access to `count` bytes from `I`, from the table of R244. -/
def dataFault (s : State) (count : Nat) : Option Fault :=
  if count > 0 ∧ s.i.toNat + count - 1 > 0xFFF then some (.addressFault (max s.i.toNat 0x1000)) else none

/-- An instruction's own fault, from the table of R240: at most one for each (R245). -/
def ownFault (s : State) : Instr → Option Fault
  | .ret => if s.sp = 0 then some (.stackUnderflow s.pc) else none
  | .call _ => if s.sp = 15 then some (.stackOverflow s.pc) else none
  | .skpVx x => if (readV s x).toNat > 15 then some (.keyIndexFault (readV s x)) else none
  | .sknpVx x => if (readV s x).toNat > 15 then some (.keyIndexFault (readV s x)) else none
  | .drwVxVyN _ _ n => dataFault s n.toNat
  | .ldBVx _ => dataFault s 3
  | .ldMemVx x => dataFault s (x.val + 1)
  | .ldVxMem x => dataFault s (x.val + 1)
  | .cls => none
  | .jp _ => none
  | .seVxKk _ _ => none
  | .sneVxKk _ _ => none
  | .seVxVy _ _ => none
  | .ldVxKk _ _ => none
  | .addVxKk _ _ => none
  | .ldVxVy _ _ => none
  | .orVxVy _ _ => none
  | .andVxVy _ _ => none
  | .xorVxVy _ _ => none
  | .addVxVy _ _ => none
  | .subVxVy _ _ => none
  | .shrVxVy _ _ => none
  | .subnVxVy _ _ => none
  | .shlVxVy _ _ => none
  | .sneVxVy _ _ => none
  | .ldINnn _ => none
  | .jpV0Nnn _ => none
  | .rndVxKk _ _ => none
  | .ldVxDt _ => none
  | .ldVxK _ => none
  | .ldDtVx _ => none
  | .ldStVx _ => none
  | .addIVx _ => none
  | .ldFVx _ => none

/-! ### The quirks and the screen -/

/-- The instructions that read `Q_LOGIC_VF` (R181). -/
def ReadsLogicQuirk (i : Instr) : Prop := ∃ x y, i = .orVxVy x y ∨ i = .andVxVy x y ∨ i = .xorVxVy x y

/-- The instructions that read `Q_SHIFT_X` (R181). -/
def ReadsShiftQuirk (i : Instr) : Prop := ∃ x y, i = .shrVxVy x y ∨ i = .shlVxVy x y

/-- An outcome with the next state changed. -/
def mapNext (f : State → State) : Result → Result
  | .next t => .next (f t)
  | .fault e => .fault e
  | .refused r => .refused r

/-- Whether the sprite of a draw has a pixel at column `c` and row `r` of the screen: some row and column of its data whose bit is
set, bit 7 being column 0, lands there, the column modulo 64 and the row unreduced (R200 to R203). -/
def SpritePixel (s : State) (x y : Reg) (n : Nibble) (c r : Nat) : Prop :=
  ∃ row col, row < n.toNat ∧ col < 8 ∧ (byteAt s (s.i.toNat + row)).getLsbD (7 - col) = true ∧
    ((readV s x).toNat + col) % 64 = c ∧ (readV s y).toNat + row = r

end Sys2Proof.Machine
end

