-- ==== Sys2Proof/Certificates/Slice0/Obligations.lean ====
section
/-! DEFINITION. The statements for the provers, from the numbered rules of the spec. Results are said in the spec's own terms:
register by register, cell by cell, byte by byte, with numbers reduced modulo 256 or 65536 as R10 writes them. -/

open Sys2Proof Sys2Proof.Machine

/-! ### Encoding and fetch -/

/-- A few words, written out from the opcode map (R95), and the instructions they are. -/
def Obligations.SampleWordsDecode : Prop :=
  decodeWord 0x00E0 = some .cls ∧ decodeWord 0x1ABC = some (.jp 0xABC) ∧
  decodeWord 0x332A = some (.seVxKk 3 0x2A) ∧ decodeWord 0x8F14 = some (.addVxVy 15 1) ∧
  decodeWord 0xD123 = some (.drwVxVyN 1 2 3) ∧ decodeWord 0xE09E = some (.skpVx 0) ∧
  decodeWord 0xF255 = some (.ldMemVx 2) ∧ decodeWord 0x0000 = none ∧ decodeWord 0x5121 = none

/-- Decoding the word, or the bytes, of any instruction gives it back, whatever bytes follow (R66, R92, R95, R97). -/
def Obligations.DecodeOfEncode : Prop :=
  ∀ i : Instr, decodeWord (encode i) = some i ∧ ∀ rest, decode (encodeBytes i ++ rest) = .ok (i, rest)

/-- A word that decodes is the word of its instruction: no bit of it is ignored (R94, R97). -/
def Obligations.EncodeOfDecode : Prop := ∀ w i, decodeWord w = some i → encode i = w

/-- R97: a word is an instruction of a row exactly when it satisfies the row's match and mask, as the table of R95 writes them. -/
def Obligations.DecodeFollowsMatchAndMask : Prop :=
  ∀ w i, w &&& (opcodeRow i).mask = (opcodeRow i).pat ↔ ∃ j, decodeWord w = some j ∧ opcodeRow j = opcodeRow i

/-- R98: the words that decode to nothing are exactly the six classes of unknown words. -/
def Obligations.UnknownWordsAreExactlyTheSixClasses : Prop := ∀ w, decodeWord w = none ↔ unknownWord w = true

/-- R121: the fetch gives the two bytes at `pc`, the first one high; it faults exactly above 0xFFE, with the lowest address it
cannot read; and then the whole event does. -/
def Obligations.FetchIsBigEndianAndFaultsAboveMemory : Prop :=
  ∀ s : State,
    (s.pc.toNat ≤ 0xFFE → ∃ w, fetchWord s = .ok w ∧
      w.toNat = (byteAt s s.pc.toNat).toNat * 256 + (byteAt s (s.pc.toNat + 1)).toNat) ∧
    (s.pc.toNat ≥ 0x1000 → step s = .fault (.addressFault s.pc.toNat)) ∧
    (s.pc.toNat = 0xFFF → step s = .fault (.addressFault 0x1000))

/-- A step runs the instruction the two bytes at `pc` are: nothing is done around `exec` (R120, R123). -/
def Obligations.StepRunsTheDecodedInstruction : Prop :=
  ∀ (s : State) (i : Instr), s.pc.toNat ≤ 0xFFE →
    decode [byteAt s s.pc.toNat, byteAt s (s.pc.toNat + 1)] = .ok (i, []) → step s = exec i s

/-- R241: an `EXECUTE` reports an unknown opcode exactly when the word at `pc` is one, with that word and that `pc`, and then the
state is as it was. -/
def Obligations.UnknownOpcodeIsReportedWithWordAndAddress : Prop :=
  ∀ (s : State) (op addr : Word), ((execute s).2 = .fault (.unknownOpcode op addr) ↔
      fetchWord s = .ok op ∧ unknownWord op = true ∧ addr = s.pc) ∧
    ((execute s).2 = .fault (.unknownOpcode op addr) → (execute s).1 = s)

/-! ### Families 0, 1, 2 -/

/-- R140: `CLS` zeroes every cell and touches nothing else but `pc`. -/
def Obligations.ClsClearsTheScreen : Prop :=
  decodeWord 0x00E0 = some .cls ∧
  ∀ s, ∃ t, exec .cls s = .next t ∧ (∀ k, cellOf t.video k = false) ∧ t.pc = s.pc + 2 ∧ SameBut [.video, .pc] s t

/-- R141: `RET` faults on the empty stack; else `pc` is the popped entry plus 2, `sp` one less, and the entry stays. -/
def Obligations.RetPopsAndAddsTwo : Prop :=
  decodeWord 0x00EE = some .ret ∧
  ∀ s, (s.sp = 0 → exec .ret s = .fault (.stackUnderflow s.pc)) ∧
    (s.sp ≠ 0 → ∃ t, exec .ret s = .next t ∧ t.pc = s.stack[s.sp] + 2 ∧ t.sp.val = s.sp.val - 1 ∧ SameBut [.pc, .sp] s t)

/-- R142: `JP nnn` sets `pc` to the zero-extended target, whatever it is. -/
def Obligations.JpSetsPc : Prop :=
  ∀ nnn, decodeWord (wordPNNN 0x1 nnn) = some (.jp nnn) ∧
  ∀ s, ∃ t, exec (.jp nnn) s = .next t ∧ t.pc.toNat = nnn.toNat ∧ SameBut [.pc] s t

/-- R143: `CALL nnn` faults at `sp` = 15; else it pushes its own address above the newest entry and jumps. -/
def Obligations.CallPushesItsOwnAddress : Prop :=
  ∀ nnn, decodeWord (wordPNNN 0x2 nnn) = some (.call nnn) ∧
  ∀ s, (s.sp = 15 → exec (.call nnn) s = .fault (.stackOverflow s.pc)) ∧
    (s.sp ≠ 15 → ∃ t, exec (.call nnn) s = .next t ∧ t.pc.toNat = nnn.toNat ∧ t.sp.val = s.sp.val + 1 ∧
      (∀ k : Fin 16, t.stack[k] = if k.val = s.sp.val + 1 then s.pc else s.stack[k]) ∧ SameBut [.pc, .stack, .sp] s t)

/-- The law of R144, which the spec marks as derived from R141 and R143: a `RET` that finds `sp` and its entry as the `CALL` left them lands after the `CALL`, at the depth before it; neither
saves or restores a register. -/
def Obligations.CallThenReturn : Prop :=
  ∀ nnn s t u, exec (.call nnn) s = .next t → u.sp = t.sp → u.stack[u.sp] = s.pc →
    SameBut [.pc, .stack, .sp] s t ∧
    ∃ z, exec .ret u = .next z ∧ z.pc = s.pc + 2 ∧ z.sp = s.sp ∧ SameBut [.pc, .sp] u z

/-! ### Skips and immediates -/

/-- R150, R151: the skips on an immediate. -/
def Obligations.SkipsOnAnImmediate : Prop :=
  ∀ x kk, decodeWord (wordPXKK 0x3 x kk) = some (.seVxKk x kk) ∧ decodeWord (wordPXKK 0x4 x kk) = some (.sneVxKk x kk) ∧
  ∀ s, (∃ t, exec (.seVxKk x kk) s = .next t ∧
      t.pc = (if (readV s x).toNat = kk.toNat then s.pc + 4 else s.pc + 2) ∧ SameBut [.pc] s t) ∧
    (∃ t, exec (.sneVxKk x kk) s = .next t ∧
      t.pc = (if (readV s x).toNat = kk.toNat then s.pc + 2 else s.pc + 4) ∧ SameBut [.pc] s t)

/-- R152, R153: the skips on two registers; with X = Y the first always skips and the second never. -/
def Obligations.SkipsOnRegisters : Prop :=
  ∀ x y, decodeWord (wordPXYN 0x5 x y 0) = some (.seVxVy x y) ∧ decodeWord (wordPXYN 0x9 x y 0) = some (.sneVxVy x y) ∧
  (∀ n, n ≠ 0 → decodeWord (wordPXYN 0x5 x y n) = none ∧ decodeWord (wordPXYN 0x9 x y n) = none) ∧
  ∀ s, (∃ t, exec (.seVxVy x y) s = .next t ∧
      t.pc = (if (readV s x).toNat = (readV s y).toNat then s.pc + 4 else s.pc + 2) ∧ SameBut [.pc] s t) ∧
    (∃ t, exec (.sneVxVy x y) s = .next t ∧
      t.pc = (if (readV s x).toNat = (readV s y).toNat then s.pc + 2 else s.pc + 4) ∧ SameBut [.pc] s t)

/-- R160: `LD Vx,kk`. -/
def Obligations.LoadImmediate : Prop :=
  ∀ x kk, decodeWord (wordPXKK 0x6 x kk) = some (.ldVxKk x kk) ∧
  ∀ s, ∃ t, exec (.ldVxKk x kk) s = .next t ∧ t.pc = s.pc + 2 ∧
    (∀ r, readV t r = if r = x then kk else readV s r) ∧ SameBut [.v, .pc] s t

/-- R161: `ADD Vx,kk` adds modulo 256 and sets no flag: VF changes only as the named destination. -/
def Obligations.AddImmediateSetsNoFlag : Prop :=
  ∀ x kk, decodeWord (wordPXKK 0x7 x kk) = some (.addVxKk x kk) ∧
  ∀ s, ∃ t, exec (.addVxKk x kk) s = .next t ∧ t.pc = s.pc + 2 ∧
    (∀ r, (readV t r).toNat = if r = x then ((readV s x).toNat + kk.toNat) % 256 else (readV s r).toNat) ∧
    SameBut [.v, .pc] s t

/-! ### Family 8 -/

/-- R170: `LD Vx,Vy`, under every quirk setting. -/
def Obligations.MoveRegister : Prop :=
  ∀ x y, decodeWord (wordPXYN 0x8 x y 0x0) = some (.ldVxVy x y) ∧
  ∀ s, ∃ t, exec (.ldVxVy x y) s = .next t ∧ t.pc = s.pc + 2 ∧
    (∀ r, readV t r = if r = x then readV s y else readV s r) ∧ SameBut [.v, .pc] s t

/-- R171 to R173: the bitwise operations; under `Q_LOGIC_VF` VF ends 0, also as the destination. -/
def Obligations.LogicOperations : Prop :=
  ∀ x y, decodeWord (wordPXYN 0x8 x y 0x1) = some (.orVxVy x y) ∧ decodeWord (wordPXYN 0x8 x y 0x2) = some (.andVxVy x y) ∧
  decodeWord (wordPXYN 0x8 x y 0x3) = some (.xorVxVy x y) ∧
  ∀ s, (∃ t, exec (.orVxVy x y) s = .next t ∧ t.pc = s.pc + 2 ∧ SameBut [.v, .pc] s t ∧
      ∀ r, readV t r = if r = 15 ∧ s.qLogicVF = true then 0 else if r = x then readV s x ||| readV s y else readV s r) ∧
    (∃ t, exec (.andVxVy x y) s = .next t ∧ t.pc = s.pc + 2 ∧ SameBut [.v, .pc] s t ∧
      ∀ r, readV t r = if r = 15 ∧ s.qLogicVF = true then 0 else if r = x then readV s x &&& readV s y else readV s r) ∧
    (∃ t, exec (.xorVxVy x y) s = .next t ∧ t.pc = s.pc + 2 ∧ SameBut [.v, .pc] s t ∧
      ∀ r, readV t r = if r = 15 ∧ s.qLogicVF = true then 0 else if r = x then readV s x ^^^ readV s y else readV s r)

/-- R174: `ADD Vx,Vy`; VF is the carry of the unreduced sum, also when VF is the destination. -/
def Obligations.AddWithCarryOut : Prop :=
  ∀ x y, decodeWord (wordPXYN 0x8 x y 0x4) = some (.addVxVy x y) ∧
  ∀ s, ∃ t, exec (.addVxVy x y) s = .next t ∧ t.pc = s.pc + 2 ∧ SameBut [.v, .pc] s t ∧
    ∀ r, (readV t r).toNat =
      if r = 15 then (if (readV s x).toNat + (readV s y).toNat > 255 then 1 else 0)
      else if r = x then ((readV s x).toNat + (readV s y).toNat) % 256 else (readV s r).toNat

/-- R175, R177: `SUB` and `SUBN`; VF is 1 when the minuend is at least the subtrahend, also when VF is the destination. -/
def Obligations.SubtractionsSetNotBorrow : Prop :=
  ∀ x y, decodeWord (wordPXYN 0x8 x y 0x5) = some (.subVxVy x y) ∧ decodeWord (wordPXYN 0x8 x y 0x7) = some (.subnVxVy x y) ∧
  ∀ s, (∃ t, exec (.subVxVy x y) s = .next t ∧ t.pc = s.pc + 2 ∧ SameBut [.v, .pc] s t ∧
      ∀ r, ((readV t r).toNat : Int) =
        if r = 15 then (if (readV s x).toNat ≥ (readV s y).toNat then 1 else 0)
        else if r = x then ((readV s x).toNat - (readV s y).toNat : Int) % 256 else (readV s r).toNat) ∧
    (∃ t, exec (.subnVxVy x y) s = .next t ∧ t.pc = s.pc + 2 ∧ SameBut [.v, .pc] s t ∧
      ∀ r, ((readV t r).toNat : Int) =
        if r = 15 then (if (readV s y).toNat ≥ (readV s x).toNat then 1 else 0)
        else if r = x then ((readV s y).toNat - (readV s x).toNat : Int) % 256 else (readV s r).toNat)

/-- R176, R178: the shifts, of VX under `Q_SHIFT_X` and of VY without it; VF is the bit shifted out, also when VF is the
destination. -/
def Obligations.ShiftsSetTheBitShiftedOut : Prop :=
  ∀ x y, decodeWord (wordPXYN 0x8 x y 0x6) = some (.shrVxVy x y) ∧ decodeWord (wordPXYN 0x8 x y 0xE) = some (.shlVxVy x y) ∧
  ∀ s, ∃ src : Nat, src = (if s.qShiftX = true then (readV s x).toNat else (readV s y).toNat) ∧
    (∃ t, exec (.shrVxVy x y) s = .next t ∧ t.pc = s.pc + 2 ∧ SameBut [.v, .pc] s t ∧
      ∀ r, (readV t r).toNat = if r = 15 then src % 2 else if r = x then src / 2 else (readV s r).toNat) ∧
    (∃ t, exec (.shlVxVy x y) s = .next t ∧ t.pc = s.pc + 2 ∧ SameBut [.v, .pc] s t ∧
      ∀ r, (readV t r).toNat = if r = 15 then src / 128 else if r = x then src * 2 % 256 else (readV s r).toNat)

/-- R22: the instructions that always write VF as a flag leave it exactly 0 or 1, whatever register they name. -/
def Obligations.FlagsAreZeroOrOne : Prop :=
  ∀ x y n i s t, i ∈ [Instr.addVxVy x y, .subVxVy x y, .subnVxVy x y, .shrVxVy x y, .shlVxVy x y, .drwVxVyN x y n] →
    exec i s = .next t → readV t 15 = 0 ∨ readV t 15 = 1

/-- R181: only `OR`, `AND`, `XOR` read `Q_LOGIC_VF` and only `SHR`, `SHL` read `Q_SHIFT_X`: every other instruction does the same
under the other setting, and a `SET_QUIRKS` before an `EXECUTE` is what that `EXECUTE` reads. -/
def Obligations.QuirksAreReadByTheirInstructionsOnly : Prop :=
  (∀ i s b, ¬ ReadsLogicQuirk i →
    exec i { s with qLogicVF := b } = mapNext (fun t => { t with qLogicVF := b }) (exec i s)) ∧
  (∀ i s b, ¬ ReadsShiftQuirk i →
    exec i { s with qShiftX := b } = mapNext (fun t => { t with qShiftX := b }) (exec i s)) ∧
  (∀ q a b s, (sendAll q [.setQuirks a b, .execute] s).1 = (execute { s with qShiftX := a, qLogicVF := b }).1)

/-! ### Families A, B, C -/

/-- R190: `LD I,nnn`. -/
def Obligations.LoadIndex : Prop :=
  ∀ nnn, decodeWord (wordPNNN 0xA nnn) = some (.ldINnn nnn) ∧
  ∀ s, ∃ t, exec (.ldINnn nnn) s = .next t ∧ t.i.toNat = nnn.toNat ∧ t.pc = s.pc + 2 ∧ SameBut [.i, .pc] s t

/-- R191: `JP V0,nnn` goes to the unmasked sum. -/
def Obligations.JumpWithOffsetIsNotMasked : Prop :=
  ∀ nnn, decodeWord (wordPNNN 0xB nnn) = some (.jpV0Nnn nnn) ∧
  ∀ s, ∃ t, exec (.jpV0Nnn nnn) s = .next t ∧ t.pc.toNat = nnn.toNat + (readV s 0).toNat ∧ SameBut [.pc] s t

/-- R192: `RND Vx,kk` makes exactly one draw and writes it under the mask, so that bits outside `kk` are 0. The byte drawn is the
free value `Config.randomByte` (log entry 1): the statement holds for every value of it. -/
def Obligations.RandomByteUnderTheMask : Prop :=
  ∀ x kk, decodeWord (wordPXKK 0xC x kk) = some (.rndVxKk x kk) ∧
  ∀ s, ∃ t, exec (.rndVxKk x kk) s = .next t ∧ t.pc = s.pc + 2 ∧ t.draws = s.draws + 1 ∧
    (∀ r, readV t r = if r = x then Config.randomByte s.draws &&& kk else readV s r) ∧
    (readV t x &&& ~~~kk = 0) ∧ SameBut [.v, .pc, .draws] s t

/-! ### Family D -/

/-- R200: a draw whose bytes lie in memory toggles exactly the cells its sprite has a pixel on, and VF is 1 exactly when one of them
was set; a draw that needs a byte above 0xFFF faults. The bit order is that of R201 (log entry 15), the columns wrap (R202) and the
rows are clipped (R203; log entry 14), also with VF as a coordinate (R205; log entry 16). -/
def Obligations.DrawTogglesExactlyTheSpritePixels : Prop :=
  ∀ x y n, decodeWord (wordPXYN 0xD x y n) = some (.drwVxVyN x y n) ∧
  ∀ s, (n.toNat > 0 ∧ s.i.toNat + n.toNat - 1 > 0xFFF →
      exec (.drwVxVyN x y n) s = .fault (.addressFault (max s.i.toNat 0x1000))) ∧
    (¬ (n.toNat > 0 ∧ s.i.toNat + n.toNat - 1 > 0xFFF) →
    ∃ t, exec (.drwVxVyN x y n) s = .next t ∧ t.pc = s.pc + 2 ∧
      (∀ c r, c < 64 → r < 32 →
        (cellOf t.video (c + 64 * r) = true ↔ ¬ (cellOf s.video (c + 64 * r) = true ↔ SpritePixel s x y n c r))) ∧
      (readV t 15 = 0 ∨ readV t 15 = 1) ∧
      (readV t 15 = 1 ↔ ∃ c r, c < 64 ∧ r < 32 ∧ SpritePixel s x y n c r ∧ cellOf s.video (c + 64 * r) = true) ∧
      (∀ q : Reg, q ≠ 15 → readV t q = readV s q) ∧ SameBut [.v, .video, .pc] s t)

/-- The involution R206 marks as derived from R200 and R204: drawing the same sprite twice at the same position restores the framebuffer, and the second draw collides exactly when
the first one turned a cell on. The position is the same when the two coordinate registers still hold what they held. -/
def Obligations.DrawingTwiceRestores : Prop :=
  ∀ x y n s t u, exec (.drwVxVyN x y n) s = .next t → exec (.drwVxVyN x y n) t = .next u →
    readV t x = readV s x → readV t y = readV s y →
    u.video = s.video ∧
    (readV u 15 = 1 ↔ ∃ k, k < 2048 ∧ cellOf s.video k = false ∧ cellOf t.video k = true)

/-! ### Family E and FX0A -/

/-- R210, R211, R213: the keypad skips fault on a key number above 15 and else test the bit of that number. -/
def Obligations.KeySkipsTestTheKeypadBit : Prop :=
  ∀ x, decodeWord (wordPXKK 0xE x 0x9E) = some (.skpVx x) ∧ decodeWord (wordPXKK 0xE x 0xA1) = some (.sknpVx x) ∧
  ∀ s, ((readV s x).toNat > 15 →
      exec (.skpVx x) s = .fault (.keyIndexFault (readV s x)) ∧ exec (.sknpVx x) s = .fault (.keyIndexFault (readV s x))) ∧
    ((readV s x).toNat ≤ 15 →
      (∃ t, exec (.skpVx x) s = .next t ∧ SameBut [.pc] s t ∧
        t.pc = if s.keypad.getLsbD (readV s x).toNat = true then s.pc + 4 else s.pc + 2) ∧
      (∃ t, exec (.sknpVx x) s = .next t ∧ SameBut [.pc] s t ∧
        t.pc = if s.keypad.getLsbD (readV s x).toNat = true then s.pc + 2 else s.pc + 4))

/-- R212, R214: one pass of `LD Vx,K`. A key is released when it is latched and up. Without a released key every key now down is
latched too and nothing else changes; with one, VX is the least, the latch is cleared and `pc` advances. -/
def Obligations.KeyWaitPass : Prop :=
  ∀ x, decodeWord (wordPXKK 0xF x 0x0A) = some (.ldVxK x) ∧
  ∀ s : State, ((∀ k, k < 16 → ¬ (s.keylatch.getLsbD k = true ∧ s.keypad.getLsbD k = false)) →
      ∃ t, exec (.ldVxK x) s = .next t ∧
        (∀ k, k < 16 → t.keylatch.getLsbD k = (s.keylatch.getLsbD k || s.keypad.getLsbD k)) ∧ SameBut [.keylatch] s t) ∧
    (∀ k, k < 16 → s.keylatch.getLsbD k = true → s.keypad.getLsbD k = false →
      (∀ j, j < k → ¬ (s.keylatch.getLsbD j = true ∧ s.keypad.getLsbD j = false)) →
      ∃ t, exec (.ldVxK x) s = .next t ∧ (∀ r, (readV t r).toNat = if r = x then k else (readV s r).toNat) ∧
        t.keylatch = 0 ∧ t.pc = s.pc + 2 ∧ SameBut [.v, .keylatch, .pc] s t)

/-- The document's property of `LD Vx,K` (S7): from no key down and none latched, pressing key k, a pass, releasing it, and a second
pass give VX = k and advance `pc` once, not on the press. -/
def Obligations.KeyWaitCompletesOnReleaseNotOnPress : Prop :=
  ∀ (x k : Reg) s, s.keypad = 0 → s.keylatch = 0 →
    ∃ t u, exec (.ldVxK x) (keySet k s) = .next t ∧ t.pc = s.pc ∧ t.keylatch = BitVec.twoPow 16 k.val ∧
      exec (.ldVxK x) (keyClear k t) = .next u ∧ (readV u x).toNat = k.val ∧ u.pc = s.pc + 2 ∧ u.keylatch = 0

/-! ### Family F -/

/-- R220 to R222: the moves between a register and the timers; an `EXECUTE` of one answers ok, so it makes no output. -/
def Obligations.TimerMoves : Prop :=
  ∀ x, decodeWord (wordPXKK 0xF x 0x07) = some (.ldVxDt x) ∧ decodeWord (wordPXKK 0xF x 0x15) = some (.ldDtVx x) ∧
  decodeWord (wordPXKK 0xF x 0x18) = some (.ldStVx x) ∧
  ∀ s, (∃ t, exec (.ldVxDt x) s = .next t ∧ (∀ r, readV t r = if r = x then s.dt else readV s r) ∧ t.pc = s.pc + 2 ∧
      SameBut [.v, .pc] s t) ∧
    (∃ t, exec (.ldDtVx x) s = .next t ∧ t.dt = readV s x ∧ t.pc = s.pc + 2 ∧ SameBut [.dt, .pc] s t) ∧
    (∃ t, exec (.ldStVx x) s = .next t ∧ t.st = readV s x ∧ t.pc = s.pc + 2 ∧ SameBut [.st, .pc] s t) ∧
    (∀ i, i ∈ [Instr.ldVxDt x, .ldDtVx x, .ldStVx x] → fetchInstr s = .ok i → (execute s).2 = .ok)

/-- R223, R224: `ADD I,Vx` is a 16-bit sum that leaves VF alone, and `LD F,Vx` is five times the whole byte. -/
def Obligations.IndexArithmetic : Prop :=
  ∀ x, decodeWord (wordPXKK 0xF x 0x1E) = some (.addIVx x) ∧ decodeWord (wordPXKK 0xF x 0x29) = some (.ldFVx x) ∧
  ∀ s, (∃ t, exec (.addIVx x) s = .next t ∧ t.i.toNat = (s.i.toNat + (readV s x).toNat) % 65536 ∧ t.pc = s.pc + 2 ∧
      SameBut [.i, .pc] s t) ∧
    (∃ t, exec (.ldFVx x) s = .next t ∧ t.i.toNat = (readV s x).toNat * 5 ∧ t.pc = s.pc + 2 ∧ SameBut [.i, .pc] s t)

/-- R225: `LD B,Vx` stores the hundreds, tens and ones at `I`, `I + 1`, `I + 2`, and no other byte; if one of them lies above
0xFFF it faults. -/
def Obligations.BcdStoresThreeDigits : Prop :=
  ∀ x, decodeWord (wordPXKK 0xF x 0x33) = some (.ldBVx x) ∧
  ∀ s, (s.i.toNat + 2 > 0xFFF → exec (.ldBVx x) s = .fault (.addressFault (max s.i.toNat 0x1000))) ∧
    (s.i.toNat + 2 ≤ 0xFFF → ∃ t, exec (.ldBVx x) s = .next t ∧ t.pc = s.pc + 2 ∧ SameBut [.mem, .pc] s t ∧
      ∀ a, (byteAt t a).toNat =
        if a = s.i.toNat then (readV s x).toNat / 100
        else if a = s.i.toNat + 1 then (readV s x).toNat / 10 % 10
        else if a = s.i.toNat + 2 then (readV s x).toNat % 10 else (byteAt s a).toNat)

/-- R226: `LD [I],Vx` stores V[r] at `I + r` for r up to X, and no other byte; if one of them lies above 0xFFF it faults. -/
def Obligations.BlockStore : Prop :=
  ∀ x, decodeWord (wordPXKK 0xF x 0x55) = some (.ldMemVx x) ∧
  ∀ s, (s.i.toNat + x.val > 0xFFF → exec (.ldMemVx x) s = .fault (.addressFault (max s.i.toNat 0x1000))) ∧
    (s.i.toNat + x.val ≤ 0xFFF → ∃ t, exec (.ldMemVx x) s = .next t ∧ t.pc = s.pc + 2 ∧ SameBut [.mem, .pc] s t ∧
      (∀ r : Reg, r ≤ x → byteAt t (s.i.toNat + r.val) = readV s r) ∧
      ∀ a, ¬ (s.i.toNat ≤ a ∧ a ≤ s.i.toNat + x.val) → byteAt t a = byteAt s a)

/-- R227: `LD Vx,[I]` loads V[r] from `I + r` for r up to X, and no other register; if one of them lies above 0xFFF it faults. -/
def Obligations.BlockLoad : Prop :=
  ∀ x, decodeWord (wordPXKK 0xF x 0x65) = some (.ldVxMem x) ∧
  ∀ s, (s.i.toNat + x.val > 0xFFF → exec (.ldVxMem x) s = .fault (.addressFault (max s.i.toNat 0x1000))) ∧
    (s.i.toNat + x.val ≤ 0xFFF → ∃ t, exec (.ldVxMem x) s = .next t ∧ t.pc = s.pc + 2 ∧ SameBut [.v, .pc] s t ∧
      ∀ r : Reg, readV t r = if r ≤ x then byteAt s (s.i.toNat + r.val) else readV s r)

/-- The law R227 marks as derived from R226 and R227: a block load after a block store with the same `I` and X restores the registers saved, whatever happened to them
in between. -/
def Obligations.StoreThenLoadRestoresRegisters : Prop :=
  ∀ x s t u, exec (.ldMemVx x) s = .next t → u.i = s.i → (∀ a, byteAt u a = byteAt t a) →
    ∃ z, exec (.ldVxMem x) u = .next z ∧ ∀ r : Reg, r ≤ x → readV z r = readV s r

/-! ### Rules over all instructions -/

/-- R244: where an address above 0xFFF is needed, in the fetch and in the four memory instructions, and the payload. -/
def Obligations.AddressFaultTable : Prop :=
  ∀ s : State,
    (s.pc.toNat ≥ 0x1000 → step s = .fault (.addressFault s.pc.toNat)) ∧
    (s.pc.toNat = 0xFFF → step s = .fault (.addressFault 0x1000)) ∧
    (∀ x y n a, exec (.drwVxVyN x y n) s = .fault (.addressFault a) ↔
      (n.toNat > 0 ∧ s.i.toNat + n.toNat - 1 > 0xFFF) ∧ a = max s.i.toNat 0x1000) ∧
    (∀ x a, exec (.ldBVx x) s = .fault (.addressFault a) ↔ s.i.toNat + 2 > 0xFFF ∧ a = max s.i.toNat 0x1000) ∧
    (∀ x a, exec (.ldMemVx x) s = .fault (.addressFault a) ↔ s.i.toNat + x.val > 0xFFF ∧ a = max s.i.toNat 0x1000) ∧
    (∀ x a, exec (.ldVxMem x) s = .fault (.addressFault a) ↔ s.i.toNat + x.val > 0xFFF ∧ a = max s.i.toNat 0x1000) ∧
    (∀ a, step s = .fault (.addressFault a) → (execute s).1 = s)

/-- R240, R245: an instruction raises its own fault of the table exactly when the table's condition holds, and in every other
state it completes; none is refused. -/
def Obligations.EveryInstructionCompletesOrRaisesItsOwnFault : Prop :=
  ∀ i s, (∀ f, ownFault s i = some f → exec i s = .fault f) ∧ (ownFault s i = none → ∃ t, exec i s = .next t)

/-- R36: an instruction that completes changes no component but those its row of the access table marks as written. -/
def Obligations.AccessTableOfWrites : Prop := ∀ i s t, exec i s = .next t → SameBut (writesOf i) s t

/-- R124: where every instruction leaves `pc`, by its class. -/
def Obligations.ProgramCounterPolicy : Prop := ∀ i s t, exec i s = .next t → t.pc = nextPc s i

/-- R126: an `EXECUTE` changes `DT` and `ST` only by `LD DT,Vx` and `LD ST,Vx`, never `KEYPAD` or the quirk flags, and never emits
`BEEP_STOP`. -/
def Obligations.ExecuteLeavesTimersKeypadAndQuirks : Prop :=
  ∀ s : State, (execute s).1.keypad = s.keypad ∧ (execute s).1.qShiftX = s.qShiftX ∧ (execute s).1.qLogicVF = s.qLogicVF ∧
    ((∀ x, fetchInstr s ≠ .ok (.ldDtVx x)) → (execute s).1.dt = s.dt) ∧
    ((∀ x, fetchInstr s ≠ .ok (.ldStVx x)) → (execute s).1.st = s.st) ∧ (execute s).2 ≠ .beepStop

/-- R7: an `EXECUTE` ends in exactly one of three ways: ok; ok-waiting, exactly when it is a pass of `LD Vx,K` in which no latched
key is up (R212), and that leaves `pc`; or a fault, which leaves the state. -/
def Obligations.ExecuteHasThreeOutcomes : Prop :=
  ∀ s : State, ((execute s).2 = .ok ∨ ((execute s).2 = .waiting ∧ (execute s).1.pc = s.pc) ∨
      ∃ f, (execute s).2 = .fault f ∧ (execute s).1 = s) ∧
    ((execute s).2 = .waiting ↔ (∃ x, fetchInstr s = .ok (.ldVxK x)) ∧
      ∀ k, k < 16 → ¬ (s.keylatch.getLsbD k = true ∧ s.keypad.getLsbD k = false))

/-- R246: an event that reports a fault changes no state, and the same event from the state it leaves reports the same fault. -/
def Obligations.FaultsArePreciseAndRepeat : Prop :=
  ∀ q e s f, (send q e s).2 = .fault f → (send q e s).1 = s ∧ send q e (send q e s).1 = (s, .fault f)

/-! ### Invariants -/

/-- Every step keeps the invariant: memory canonical and inside 0x000..0xFFF, `STACK[0]` zero, every stack entry at most 0xFFE, `pc`
at most 0x10FE (R24, R26, R64, R141, R191). -/
def Obligations.StepKeepsInv : Prop := ∀ s t, RunInv s → step s = .next t → RunInv t

/-- The invariant holds at reset, and at power-on. -/
def Obligations.ResetAndPowerOnMeetInv : Prop := RunInv State.reset ∧ RunInv State.powerOn

/-- Every run of events, in any order and of any length, keeps the invariant (R6). -/
def Obligations.EveryRunKeepsInv : Prop := ∀ q es s, RunInv s → RunInv (sendAll q es s).1

/-- The property R33 marks as derived from R212: `KEYLATCH` is 0 whenever no `LD Vx,K` is in progress: every step keeps that a nonzero latch means that the instruction at
`pc` is one. -/
def Obligations.StepKeepsLatchInUse : Prop := ∀ s t, LatchInUse s → step s = .next t → LatchInUse t

/-- The canonical form of memory is canonical: two memories that read the same everywhere are equal. -/
def Obligations.CanonicalMemoryIsUnique : Prop :=
  ∀ m m' : Memory, Memory.wf m = true → Memory.wf m' = true → (∀ a, Memory.read m a = Memory.read m' a) → m = m'

/-! ### Events -/

/-- R256, R257: `TIMER_TICK` counts both timers down with floor 0, answers `BEEP_STOP` exactly when `ST` goes from 1 to 0, and touches
nothing else; no other event emits it. -/
def Obligations.TimerTickCountsDown : Prop :=
  ∀ q s, (send q .timerTick s).1.dt.toNat = s.dt.toNat - 1 ∧ (send q .timerTick s).1.st.toNat = s.st.toNat - 1 ∧
    (send q .timerTick s).2 = (if s.st.toNat = 1 then .beepStop else .ok) ∧
    SameBut [.dt, .st] s (send q .timerTick s).1 ∧ (∀ e, (send q e s).2 = .beepStop → e = .timerTick)

/-- R260: `KEY_SET` and `KEY_CLEAR` change the one bit and nothing else, and cannot fail. -/
def Obligations.KeyEventsChangeOneBit : Prop :=
  ∀ q (k : Reg) (s : State),
    (∀ j, j < 16 → (send q (.keySet k) s).1.keypad.getLsbD j = if j = k.val then true else s.keypad.getLsbD j) ∧
    (∀ j, j < 16 → (send q (.keyClear k) s).1.keypad.getLsbD j = if j = k.val then false else s.keypad.getLsbD j) ∧
    SameBut [.keypad] s (send q (.keySet k) s).1 ∧ SameBut [.keypad] s (send q (.keyClear k) s).1 ∧
    (send q (.keySet k) s).2 = .ok ∧ (send q (.keyClear k) s).2 = .ok

/-- R262, R263: `SET_QUIRKS` sets the two flags and nothing else; `VIDEO_READ` answers the whole frame and changes nothing. -/
def Obligations.QuirkAndVideoEvents : Prop :=
  ∀ q a b (s : State), send q (.setQuirks a b) s = ({ s with qShiftX := a, qLogicVF := b }, .ok) ∧
    send q .videoRead s = (s, .frame s.video)

/-- R282, R40: `RESET` leaves every component as the table says, under every quirk default, without a `BEEP_STOP`, and every byte of
`MEM` as it was. -/
def Obligations.ResetClearsAllButMemory : Prop :=
  ∀ q s, ∃ t, send q .reset s = (t, .ok) ∧ (∀ r, readV t r = 0) ∧ (∀ k : Fin 16, t.stack[k] = 0) ∧ t.sp = 0 ∧ t.i = 0 ∧
    t.pc = 0x200 ∧ t.dt = 0 ∧ t.st = 0 ∧ t.keypad = 0 ∧ t.keylatch = 0 ∧ (∀ k, cellOf t.video k = false) ∧
    t.qShiftX = q.shiftX ∧ t.qLogicVF = q.logicVF ∧ ∀ a, byteAt t a = byteAt s a

/-- R281, R42: `INITIALIZE` leaves the font at 0x000..0x04F and 0 in every other byte, and the rest as `RESET` does. The font bytes are
the parameter `fontTable` (log entry 4); the statement does not depend on their values. -/
def Obligations.InitialiseWritesFontAndResets : Prop :=
  ∀ q s, ∃ t, send q .initialise s = (t, .ok) ∧
    (∀ a, a ≤ 0x04F → byteAt t a = fontTable.getD a 0) ∧ (∀ a, 0x050 ≤ a → byteAt t a = 0) ∧
    SameBut [.mem] (send q .reset s).1 t

/-- R283: `LOAD` of at most 3584 bytes copies them from 0x200 and changes nothing else; of more it answers `CapacityError` and changes
nothing. -/
def Obligations.LoadCopiesOrRefuses : Prop :=
  ∀ q (bytes : List Byte) s,
    (bytes.length ≤ 3584 → ∃ t, send q (.load bytes) s = (t, .ok) ∧ SameBut [.mem] s t ∧
      ∀ a, byteAt t a = if 0x200 ≤ a ∧ a < 0x200 + bytes.length then bytes.getD (a - 0x200) 0 else byteAt s a) ∧
    (bytes.length > 3584 → send q (.load bytes) s = (s, .fault .capacityError))

/-- R41: at power-on every component is zero and no font is in memory; and, which R41 marks as derived, an `EXECUTE` answers
`UnknownOpcode(0x0000, 0x000)`. -/
def Obligations.PowerOnIsAllZero : Prop :=
  (∀ r, readV State.powerOn r = 0) ∧ State.powerOn.i = 0 ∧ State.powerOn.pc = 0 ∧
  (∀ k : Fin 16, State.powerOn.stack[k] = 0) ∧ State.powerOn.sp = 0 ∧ State.powerOn.dt = 0 ∧ State.powerOn.st = 0 ∧
  State.powerOn.keypad = 0 ∧ State.powerOn.keylatch = 0 ∧ (∀ k, cellOf State.powerOn.video k = false) ∧
  State.powerOn.qShiftX = false ∧ State.powerOn.qLogicVF = false ∧ (∀ a, byteAt State.powerOn a = 0) ∧
  execute State.powerOn = (State.powerOn, .fault (.unknownOpcode 0x0000 0x000))

/-- R285, R286: the boot sequence with an image that fits leaves `pc` at 0x200 with the image there, the stack empty, the font in place
and the quirk flags as asked; with an image that does not fit it stops with `CapacityError`. -/
def Obligations.BootPlacesTheProgram : Prop :=
  ∀ q (image : List Byte) quirks s,
    (image.length ≤ 3584 → ∃ t, boot q image quirks s = .next t ∧ t.pc = 0x200 ∧ t.sp = 0 ∧
      (∀ j, j < image.length → byteAt t (0x200 + j) = image.getD j 0) ∧
      (∀ a, a ≤ 0x04F → byteAt t a = fontTable.getD a 0) ∧
      (t.qShiftX, t.qLogicVF) = quirks.getD (q.shiftX, q.logicVF)) ∧
    (image.length > 3584 → boot q image quirks s = .fault .capacityError)

/-- R248: after an `EXECUTE` that faults the driver sends neither `EXECUTE` nor `TIMER_TICK`, until a `RESET` or `INITIALIZE`: no
other event it may still send ends that, and it may send every other one. -/
def Obligations.FaultedDriverHoldsBack : Prop :=
  ∀ q d, (∀ d' f, driverSend q .execute d = some (d', .fault f) → d'.faulted = true ∧ d'.core = d.core) ∧
    (d.faulted = true → driverSend q .execute d = none ∧ driverSend q .timerTick d = none ∧
      (∃ d' r, driverSend q .reset d = some (d', r) ∧ d'.faulted = false) ∧
      (∃ d' r, driverSend q .initialise d = some (d', r) ∧ d'.faulted = false)) ∧
    (∀ e d' r, e ≠ .reset → e ≠ .initialise → d.faulted = true → driverSend q e d = some (d', r) → d'.faulted = true) ∧
    (∀ e, e ≠ .execute → e ≠ .timerTick → ∃ d' r, driverSend q e d = some (d', r) ∧ d'.core = (send q e d.core).1) ∧
    (d.faulted = false → ∃ d' r, driverSend q .execute d = some (d', r) ∧ d'.core = (execute d.core).1)

/-- The property R296 marks as derived from R142: in a quiescent state every further `EXECUTE`, however many, leaves the whole state unchanged and answers ok. -/
def Obligations.QuiescentStateStays : Prop :=
  ∀ q s n, Quiescent s → sendAll q (List.replicate n .execute) s = (s, List.replicate n .ok)
end

