-- ==== Sys2Proof/Laws/Memory.lean ====
section
/-! SUPPORT. The laws of `MEM`: a read after a write, and that every operation keeps the canonical form. -/

namespace Sys2Proof.Machine

@[simp] theorem Memory.read_nil (a : Nat) : Memory.read [] a = Memory.unlisted a := rfl

theorem Memory.read_drop (m : Memory) (a a' : Nat) :
    Memory.read (Memory.drop a m) a' = if a' = a then Memory.unlisted a else Memory.read m a' := by
  induction m with
  | nil => by_cases h : a' = a <;> simp [Memory.drop, h]
  | cons c rest ih =>
    obtain ⟨k, v⟩ := c
    by_cases hk : k = a
    · subst hk
      rw [Memory.drop, if_pos rfl, ih]
      by_cases h : a' = k
      · simp [h]
      · simp [Memory.read, h, Ne.symm h]
    · rw [Memory.drop, if_neg hk]
      by_cases h : k = a'
      · subst h; simp [Memory.read, hk]
      · simp [Memory.read, h, ih]

theorem Memory.length_drop_le (m : Memory) (a : Nat) : (Memory.drop a m).length ≤ m.length := by
  induction m with
  | nil => simp [Memory.drop]
  | cons c m ih => rw [Memory.drop]; split <;> simp <;> omega

/-- Where nothing is listed for an address, neither the head nor the rest lists it. -/
theorem Memory.drop_eq_cons {a k : Nat} {v : Byte} {rest : Memory} (h : Memory.drop a ((k, v) :: rest) = (k, v) :: rest) :
    k ≠ a ∧ Memory.drop a rest = rest := by
  by_cases hk : k = a
  · rw [Memory.drop, if_pos hk] at h
    have := Memory.length_drop_le rest a
    simp [h] at this
  · rw [Memory.drop, if_neg hk] at h
    exact ⟨hk, by simpa using h⟩

theorem Memory.read_place (m : Memory) (a : Nat) (b : Byte) (a' : Nat) (hm : Memory.drop a m = m) :
    Memory.read (Memory.place a b m) a' = if a' = a then b else Memory.read m a' := by
  induction m with
  | nil =>
    by_cases h : a' = a
    · simp [Memory.place, Memory.read, h]
    · simp [Memory.place, Memory.read, h, Ne.symm h]
  | cons c rest ih =>
    obtain ⟨k, v⟩ := c
    obtain ⟨hk, hr⟩ := Memory.drop_eq_cons hm
    rw [Memory.place]
    split
    · by_cases h : a' = a
      · simp [Memory.read, h]
      · simp [Memory.read, h, Ne.symm h]
    · by_cases h : k = a'
      · subst h; simp [Memory.read, hk]
      · simp [Memory.read, h, ih hr]

theorem Memory.drop_drop (m : Memory) (a : Nat) : Memory.drop a (Memory.drop a m) = Memory.drop a m := by
  induction m with
  | nil => rfl
  | cons c rest ih =>
    obtain ⟨k, v⟩ := c
    by_cases hk : k = a
    · rw [Memory.drop, if_pos hk, ih]
    · rw [Memory.drop, if_neg hk, Memory.drop, if_neg hk, ih]

/-- A read after a write gives the byte written, and every other address reads as before (R69). -/
theorem Memory.read_write (m : Memory) (a : Nat) (b : Byte) (a' : Nat) :
    Memory.read (Memory.write m a b) a' = if a' = a then b else Memory.read m a' := by
  unfold Memory.write
  split
  · next h => rw [Memory.read_drop, h]
  · rw [Memory.read_place _ _ _ _ (Memory.drop_drop m a), Memory.read_drop]
    by_cases h : a' = a <;> simp [h]

/-- What a run of bytes written reads as: each byte at its address, the rest as before (R67). -/
theorem Memory.read_writeList (bs : List Byte) (m : Memory) (a a' : Nat) :
    Memory.read (Memory.writeList m a bs) a' =
      if h : a ≤ a' ∧ a' - a < bs.length then bs[a' - a] else Memory.read m a' := by
  induction bs generalizing m a with
  | nil => simp [Memory.writeList]
  | cons b bs ih =>
    rw [Memory.writeList, ih, Memory.read_write]
    rcases Nat.lt_trichotomy a' a with h | rfl | h
    · rw [dif_neg (by omega), if_neg (by omega), dif_neg (by omega)]
    · rw [dif_neg (by omega), if_pos rfl, dif_pos (by simp)]
      simp
    · have e : a' - a = (a' - (a + 1)) + 1 := by omega
      by_cases h2 : a' - (a + 1) < bs.length
      · rw [dif_pos (by omega), dif_pos (by simp; omega)]
        simp only [e, List.getElem_cons_succ]
      · rw [dif_neg (by omega), if_neg (by omega), dif_neg (by simp; omega)]

theorem Memory.wfFrom_mono {m : Memory} {lo lo' : Nat} (h : Memory.wfFrom lo m = true) (hl : lo' ≤ lo) :
    Memory.wfFrom lo' m = true := by
  cases m with
  | nil => rfl
  | cons c rest =>
    obtain ⟨k, v⟩ := c
    simp only [Memory.wfFrom, Bool.and_eq_true, decide_eq_true_eq] at h ⊢
    exact ⟨⟨⟨by omega, h.1.1.2⟩, h.1.2⟩, h.2⟩

theorem Memory.wfFrom_drop {m : Memory} {lo : Nat} (a : Nat) (h : Memory.wfFrom lo m = true) :
    Memory.wfFrom lo (Memory.drop a m) = true := by
  induction m generalizing lo with
  | nil => rfl
  | cons c rest ih =>
    obtain ⟨k, v⟩ := c
    simp only [Memory.wfFrom, Bool.and_eq_true, decide_eq_true_eq] at h
    rw [Memory.drop]
    split
    · exact Memory.wfFrom_mono (ih h.2) (by omega)
    · simp only [Memory.wfFrom, Bool.and_eq_true, decide_eq_true_eq]
      exact ⟨h.1, ih h.2⟩

theorem Memory.wfFrom_place {m : Memory} {lo a : Nat} {b : Byte} (h : Memory.wfFrom lo m = true)
    (hm : Memory.drop a m = m) (hl : lo ≤ a) (ha : a < Config.memSize) (hb : b ≠ Memory.unlisted a) :
    Memory.wfFrom lo (Memory.place a b m) = true := by
  induction m generalizing lo with
  | nil => simp [Memory.place, Memory.wfFrom, hl, ha, hb]
  | cons c rest ih =>
    obtain ⟨k, v⟩ := c
    simp only [Memory.wfFrom, Bool.and_eq_true, decide_eq_true_eq] at h
    obtain ⟨hk, hr⟩ := Memory.drop_eq_cons hm
    rw [Memory.place]
    split
    · simp only [Memory.wfFrom, Bool.and_eq_true, decide_eq_true_eq, bne_iff_ne]
      exact ⟨⟨⟨hl, ha⟩, hb⟩, ⟨⟨by omega, h.1.1.2⟩, by simpa using h.1.2⟩, h.2⟩
    · simp only [Memory.wfFrom, Bool.and_eq_true, decide_eq_true_eq]
      exact ⟨h.1, ih h.2 hr (by omega)⟩

/-- A write inside 0x000..0xFFF keeps the canonical form. -/
theorem Memory.wf_write {m : Memory} {a : Nat} (b : Byte) (h : Memory.wf m = true) (ha : a < Config.memSize) :
    Memory.wf (Memory.write m a b) = true := by
  unfold Memory.write
  split
  · exact Memory.wfFrom_drop a h
  · next hb => exact Memory.wfFrom_place (Memory.wfFrom_drop a h) (Memory.drop_drop m a) (by omega) ha hb

/-- A run of bytes written inside 0x000..0xFFF keeps the canonical form. -/
theorem Memory.wf_writeList {bs : List Byte} {m : Memory} {a : Nat} (h : Memory.wf m = true)
    (ha : bs = [] ∨ a + bs.length ≤ Config.memSize) : Memory.wf (Memory.writeList m a bs) = true := by
  induction bs generalizing m a with
  | nil => exact h
  | cons b bs ih =>
    have hlen : a + (bs.length + 1) ≤ Config.memSize := by simpa using ha
    exact ih (Memory.wf_write b h (by omega)) (.inr (by omega))

/-- `MEM` after `INITIALIZE` is canonical. -/
theorem Memory.wf_initial : Memory.wf Memory.initial = true := rfl

/-- `MEM` at power-on is canonical. -/
theorem Memory.wf_zeroed : Memory.wf Memory.zeroed = true :=
  Memory.wf_writeList Memory.wf_initial (.inr (by decide))

/-- Every byte is 0 at power-on (R41). -/
theorem Memory.read_zeroed (a : Nat) : Memory.read Memory.zeroed a = 0 := by
  unfold Memory.zeroed
  rw [Memory.read_writeList]
  split
  · simp
  · next h =>
    have : 80 ≤ a := by simpa [Config.fontSize] using h
    simp [Memory.initial, Memory.unlisted, fontByte, List.getD, List.getElem?_eq_none (show fontTable.length ≤ a from this)]

end Sys2Proof.Machine
end

