-- ==== Sys2Proof/Laws/State.lean ====
section
/-! SUPPORT. What each named update of the state does to each field, one lemma per field per update, so that no proof unfolds a
record update. -/

namespace Sys2Proof.Machine

section
variable (s : State)

@[simp] theorem setPc_v (w : Word) : (setPc s w).v = s.v := rfl
@[simp] theorem setPc_i (w : Word) : (setPc s w).i = s.i := rfl
@[simp] theorem setPc_pc (w : Word) : (setPc s w).pc = w := rfl
@[simp] theorem setPc_stack (w : Word) : (setPc s w).stack = s.stack := rfl
@[simp] theorem setPc_sp (w : Word) : (setPc s w).sp = s.sp := rfl
@[simp] theorem setPc_dt (w : Word) : (setPc s w).dt = s.dt := rfl
@[simp] theorem setPc_st (w : Word) : (setPc s w).st = s.st := rfl
@[simp] theorem setPc_keypad (w : Word) : (setPc s w).keypad = s.keypad := rfl
@[simp] theorem setPc_keylatch (w : Word) : (setPc s w).keylatch = s.keylatch := rfl
@[simp] theorem setPc_video (w : Word) : (setPc s w).video = s.video := rfl
@[simp] theorem setPc_qShiftX (w : Word) : (setPc s w).qShiftX = s.qShiftX := rfl
@[simp] theorem setPc_qLogicVF (w : Word) : (setPc s w).qLogicVF = s.qLogicVF := rfl
@[simp] theorem setPc_mem (w : Word) : (setPc s w).mem = s.mem := rfl
@[simp] theorem setPc_draws (w : Word) : (setPc s w).draws = s.draws := rfl

@[simp] theorem advance_v : (advance s).v = s.v := rfl
@[simp] theorem advance_i : (advance s).i = s.i := rfl
@[simp] theorem advance_pc : (advance s).pc = s.pc + 2 := rfl
@[simp] theorem advance_stack : (advance s).stack = s.stack := rfl
@[simp] theorem advance_sp : (advance s).sp = s.sp := rfl
@[simp] theorem advance_dt : (advance s).dt = s.dt := rfl
@[simp] theorem advance_st : (advance s).st = s.st := rfl
@[simp] theorem advance_keypad : (advance s).keypad = s.keypad := rfl
@[simp] theorem advance_keylatch : (advance s).keylatch = s.keylatch := rfl
@[simp] theorem advance_video : (advance s).video = s.video := rfl
@[simp] theorem advance_qShiftX : (advance s).qShiftX = s.qShiftX := rfl
@[simp] theorem advance_qLogicVF : (advance s).qLogicVF = s.qLogicVF := rfl
@[simp] theorem advance_mem : (advance s).mem = s.mem := rfl
@[simp] theorem advance_draws : (advance s).draws = s.draws := rfl

@[simp] theorem skipIf_v (c : Bool) : (skipIf c s).v = s.v := rfl
@[simp] theorem skipIf_i (c : Bool) : (skipIf c s).i = s.i := rfl
@[simp] theorem skipIf_pc (c : Bool) : (skipIf c s).pc = if c then s.pc + 4 else s.pc + 2 := rfl
@[simp] theorem skipIf_stack (c : Bool) : (skipIf c s).stack = s.stack := rfl
@[simp] theorem skipIf_sp (c : Bool) : (skipIf c s).sp = s.sp := rfl
@[simp] theorem skipIf_dt (c : Bool) : (skipIf c s).dt = s.dt := rfl
@[simp] theorem skipIf_st (c : Bool) : (skipIf c s).st = s.st := rfl
@[simp] theorem skipIf_keypad (c : Bool) : (skipIf c s).keypad = s.keypad := rfl
@[simp] theorem skipIf_keylatch (c : Bool) : (skipIf c s).keylatch = s.keylatch := rfl
@[simp] theorem skipIf_video (c : Bool) : (skipIf c s).video = s.video := rfl
@[simp] theorem skipIf_qShiftX (c : Bool) : (skipIf c s).qShiftX = s.qShiftX := rfl
@[simp] theorem skipIf_qLogicVF (c : Bool) : (skipIf c s).qLogicVF = s.qLogicVF := rfl
@[simp] theorem skipIf_mem (c : Bool) : (skipIf c s).mem = s.mem := rfl
@[simp] theorem skipIf_draws (c : Bool) : (skipIf c s).draws = s.draws := rfl

@[simp] theorem writeV_v (x : Reg) (b : Byte) : (writeV s x b).v = s.v.set x b := rfl
@[simp] theorem writeV_i (x : Reg) (b : Byte) : (writeV s x b).i = s.i := rfl
@[simp] theorem writeV_pc (x : Reg) (b : Byte) : (writeV s x b).pc = s.pc := rfl
@[simp] theorem writeV_stack (x : Reg) (b : Byte) : (writeV s x b).stack = s.stack := rfl
@[simp] theorem writeV_sp (x : Reg) (b : Byte) : (writeV s x b).sp = s.sp := rfl
@[simp] theorem writeV_dt (x : Reg) (b : Byte) : (writeV s x b).dt = s.dt := rfl
@[simp] theorem writeV_st (x : Reg) (b : Byte) : (writeV s x b).st = s.st := rfl
@[simp] theorem writeV_keypad (x : Reg) (b : Byte) : (writeV s x b).keypad = s.keypad := rfl
@[simp] theorem writeV_keylatch (x : Reg) (b : Byte) : (writeV s x b).keylatch = s.keylatch := rfl
@[simp] theorem writeV_video (x : Reg) (b : Byte) : (writeV s x b).video = s.video := rfl
@[simp] theorem writeV_qShiftX (x : Reg) (b : Byte) : (writeV s x b).qShiftX = s.qShiftX := rfl
@[simp] theorem writeV_qLogicVF (x : Reg) (b : Byte) : (writeV s x b).qLogicVF = s.qLogicVF := rfl
@[simp] theorem writeV_mem (x : Reg) (b : Byte) : (writeV s x b).mem = s.mem := rfl
@[simp] theorem writeV_draws (x : Reg) (b : Byte) : (writeV s x b).draws = s.draws := rfl

@[simp] theorem setFlag_v (c : Bool) : (setFlag s c).v = s.v.set vf (flagByte c) := rfl
@[simp] theorem setFlag_i (c : Bool) : (setFlag s c).i = s.i := rfl
@[simp] theorem setFlag_pc (c : Bool) : (setFlag s c).pc = s.pc := rfl
@[simp] theorem setFlag_stack (c : Bool) : (setFlag s c).stack = s.stack := rfl
@[simp] theorem setFlag_sp (c : Bool) : (setFlag s c).sp = s.sp := rfl
@[simp] theorem setFlag_dt (c : Bool) : (setFlag s c).dt = s.dt := rfl
@[simp] theorem setFlag_st (c : Bool) : (setFlag s c).st = s.st := rfl
@[simp] theorem setFlag_keypad (c : Bool) : (setFlag s c).keypad = s.keypad := rfl
@[simp] theorem setFlag_keylatch (c : Bool) : (setFlag s c).keylatch = s.keylatch := rfl
@[simp] theorem setFlag_video (c : Bool) : (setFlag s c).video = s.video := rfl
@[simp] theorem setFlag_qShiftX (c : Bool) : (setFlag s c).qShiftX = s.qShiftX := rfl
@[simp] theorem setFlag_qLogicVF (c : Bool) : (setFlag s c).qLogicVF = s.qLogicVF := rfl
@[simp] theorem setFlag_mem (c : Bool) : (setFlag s c).mem = s.mem := rfl
@[simp] theorem setFlag_draws (c : Bool) : (setFlag s c).draws = s.draws := rfl

@[simp] theorem writeWithFlag_v (x : Reg) (b : Byte) (c : Bool) : (writeWithFlag s x b c).v = (s.v.set x b).set vf (flagByte c) := rfl
@[simp] theorem writeWithFlag_i (x : Reg) (b : Byte) (c : Bool) : (writeWithFlag s x b c).i = s.i := rfl
@[simp] theorem writeWithFlag_pc (x : Reg) (b : Byte) (c : Bool) : (writeWithFlag s x b c).pc = s.pc := rfl
@[simp] theorem writeWithFlag_stack (x : Reg) (b : Byte) (c : Bool) : (writeWithFlag s x b c).stack = s.stack := rfl
@[simp] theorem writeWithFlag_sp (x : Reg) (b : Byte) (c : Bool) : (writeWithFlag s x b c).sp = s.sp := rfl
@[simp] theorem writeWithFlag_dt (x : Reg) (b : Byte) (c : Bool) : (writeWithFlag s x b c).dt = s.dt := rfl
@[simp] theorem writeWithFlag_st (x : Reg) (b : Byte) (c : Bool) : (writeWithFlag s x b c).st = s.st := rfl
@[simp] theorem writeWithFlag_keypad (x : Reg) (b : Byte) (c : Bool) : (writeWithFlag s x b c).keypad = s.keypad := rfl
@[simp] theorem writeWithFlag_keylatch (x : Reg) (b : Byte) (c : Bool) : (writeWithFlag s x b c).keylatch = s.keylatch := rfl
@[simp] theorem writeWithFlag_video (x : Reg) (b : Byte) (c : Bool) : (writeWithFlag s x b c).video = s.video := rfl
@[simp] theorem writeWithFlag_qShiftX (x : Reg) (b : Byte) (c : Bool) : (writeWithFlag s x b c).qShiftX = s.qShiftX := rfl
@[simp] theorem writeWithFlag_qLogicVF (x : Reg) (b : Byte) (c : Bool) : (writeWithFlag s x b c).qLogicVF = s.qLogicVF := rfl
@[simp] theorem writeWithFlag_mem (x : Reg) (b : Byte) (c : Bool) : (writeWithFlag s x b c).mem = s.mem := rfl
@[simp] theorem writeWithFlag_draws (x : Reg) (b : Byte) (c : Bool) : (writeWithFlag s x b c).draws = s.draws := rfl

@[simp] theorem writeLogic_i (x : Reg) (b : Byte) : (writeLogic s x b).i = s.i := by unfold writeLogic; split <;> rfl
@[simp] theorem writeLogic_pc (x : Reg) (b : Byte) : (writeLogic s x b).pc = s.pc := by unfold writeLogic; split <;> rfl
@[simp] theorem writeLogic_stack (x : Reg) (b : Byte) : (writeLogic s x b).stack = s.stack := by unfold writeLogic; split <;> rfl
@[simp] theorem writeLogic_sp (x : Reg) (b : Byte) : (writeLogic s x b).sp = s.sp := by unfold writeLogic; split <;> rfl
@[simp] theorem writeLogic_dt (x : Reg) (b : Byte) : (writeLogic s x b).dt = s.dt := by unfold writeLogic; split <;> rfl
@[simp] theorem writeLogic_st (x : Reg) (b : Byte) : (writeLogic s x b).st = s.st := by unfold writeLogic; split <;> rfl
@[simp] theorem writeLogic_keypad (x : Reg) (b : Byte) : (writeLogic s x b).keypad = s.keypad := by unfold writeLogic; split <;> rfl
@[simp] theorem writeLogic_keylatch (x : Reg) (b : Byte) : (writeLogic s x b).keylatch = s.keylatch := by unfold writeLogic; split <;> rfl
@[simp] theorem writeLogic_video (x : Reg) (b : Byte) : (writeLogic s x b).video = s.video := by unfold writeLogic; split <;> rfl
@[simp] theorem writeLogic_qShiftX (x : Reg) (b : Byte) : (writeLogic s x b).qShiftX = s.qShiftX := by unfold writeLogic; split <;> rfl
@[simp] theorem writeLogic_qLogicVF (x : Reg) (b : Byte) : (writeLogic s x b).qLogicVF = s.qLogicVF := by unfold writeLogic; split <;> rfl
@[simp] theorem writeLogic_mem (x : Reg) (b : Byte) : (writeLogic s x b).mem = s.mem := by unfold writeLogic; split <;> rfl
@[simp] theorem writeLogic_draws (x : Reg) (b : Byte) : (writeLogic s x b).draws = s.draws := by unfold writeLogic; split <;> rfl

@[simp] theorem pushStack_v (w : Word) : (pushStack s w).v = s.v := rfl
@[simp] theorem pushStack_i (w : Word) : (pushStack s w).i = s.i := rfl
@[simp] theorem pushStack_pc (w : Word) : (pushStack s w).pc = s.pc := rfl
@[simp] theorem pushStack_stack (w : Word) : (pushStack s w).stack = s.stack.set (s.sp + 1 : Fin 16).val w := rfl
@[simp] theorem pushStack_sp (w : Word) : (pushStack s w).sp = s.sp + 1 := rfl
@[simp] theorem pushStack_dt (w : Word) : (pushStack s w).dt = s.dt := rfl
@[simp] theorem pushStack_st (w : Word) : (pushStack s w).st = s.st := rfl
@[simp] theorem pushStack_keypad (w : Word) : (pushStack s w).keypad = s.keypad := rfl
@[simp] theorem pushStack_keylatch (w : Word) : (pushStack s w).keylatch = s.keylatch := rfl
@[simp] theorem pushStack_video (w : Word) : (pushStack s w).video = s.video := rfl
@[simp] theorem pushStack_qShiftX (w : Word) : (pushStack s w).qShiftX = s.qShiftX := rfl
@[simp] theorem pushStack_qLogicVF (w : Word) : (pushStack s w).qLogicVF = s.qLogicVF := rfl
@[simp] theorem pushStack_mem (w : Word) : (pushStack s w).mem = s.mem := rfl
@[simp] theorem pushStack_draws (w : Word) : (pushStack s w).draws = s.draws := rfl

@[simp] theorem popStack_v : (popStack s).v = s.v := rfl
@[simp] theorem popStack_i : (popStack s).i = s.i := rfl
@[simp] theorem popStack_pc : (popStack s).pc = s.pc := rfl
@[simp] theorem popStack_stack : (popStack s).stack = s.stack := rfl
@[simp] theorem popStack_sp : (popStack s).sp = s.sp - 1 := rfl
@[simp] theorem popStack_dt : (popStack s).dt = s.dt := rfl
@[simp] theorem popStack_st : (popStack s).st = s.st := rfl
@[simp] theorem popStack_keypad : (popStack s).keypad = s.keypad := rfl
@[simp] theorem popStack_keylatch : (popStack s).keylatch = s.keylatch := rfl
@[simp] theorem popStack_video : (popStack s).video = s.video := rfl
@[simp] theorem popStack_qShiftX : (popStack s).qShiftX = s.qShiftX := rfl
@[simp] theorem popStack_qLogicVF : (popStack s).qLogicVF = s.qLogicVF := rfl
@[simp] theorem popStack_mem : (popStack s).mem = s.mem := rfl
@[simp] theorem popStack_draws : (popStack s).draws = s.draws := rfl

@[simp] theorem storeBytes_v (a : Nat) (bs : List Byte) : (storeBytes s a bs).v = s.v := rfl
@[simp] theorem storeBytes_i (a : Nat) (bs : List Byte) : (storeBytes s a bs).i = s.i := rfl
@[simp] theorem storeBytes_pc (a : Nat) (bs : List Byte) : (storeBytes s a bs).pc = s.pc := rfl
@[simp] theorem storeBytes_stack (a : Nat) (bs : List Byte) : (storeBytes s a bs).stack = s.stack := rfl
@[simp] theorem storeBytes_sp (a : Nat) (bs : List Byte) : (storeBytes s a bs).sp = s.sp := rfl
@[simp] theorem storeBytes_dt (a : Nat) (bs : List Byte) : (storeBytes s a bs).dt = s.dt := rfl
@[simp] theorem storeBytes_st (a : Nat) (bs : List Byte) : (storeBytes s a bs).st = s.st := rfl
@[simp] theorem storeBytes_keypad (a : Nat) (bs : List Byte) : (storeBytes s a bs).keypad = s.keypad := rfl
@[simp] theorem storeBytes_keylatch (a : Nat) (bs : List Byte) : (storeBytes s a bs).keylatch = s.keylatch := rfl
@[simp] theorem storeBytes_video (a : Nat) (bs : List Byte) : (storeBytes s a bs).video = s.video := rfl
@[simp] theorem storeBytes_qShiftX (a : Nat) (bs : List Byte) : (storeBytes s a bs).qShiftX = s.qShiftX := rfl
@[simp] theorem storeBytes_qLogicVF (a : Nat) (bs : List Byte) : (storeBytes s a bs).qLogicVF = s.qLogicVF := rfl
@[simp] theorem storeBytes_mem (a : Nat) (bs : List Byte) : (storeBytes s a bs).mem = Memory.writeList s.mem a bs := rfl
@[simp] theorem storeBytes_draws (a : Nat) (bs : List Byte) : (storeBytes s a bs).draws = s.draws := rfl

@[simp] theorem loadRegisters_i (a : Nat) (x : Reg) : (loadRegisters s a x).i = s.i := rfl
@[simp] theorem loadRegisters_pc (a : Nat) (x : Reg) : (loadRegisters s a x).pc = s.pc := rfl
@[simp] theorem loadRegisters_stack (a : Nat) (x : Reg) : (loadRegisters s a x).stack = s.stack := rfl
@[simp] theorem loadRegisters_sp (a : Nat) (x : Reg) : (loadRegisters s a x).sp = s.sp := rfl
@[simp] theorem loadRegisters_dt (a : Nat) (x : Reg) : (loadRegisters s a x).dt = s.dt := rfl
@[simp] theorem loadRegisters_st (a : Nat) (x : Reg) : (loadRegisters s a x).st = s.st := rfl
@[simp] theorem loadRegisters_keypad (a : Nat) (x : Reg) : (loadRegisters s a x).keypad = s.keypad := rfl
@[simp] theorem loadRegisters_keylatch (a : Nat) (x : Reg) : (loadRegisters s a x).keylatch = s.keylatch := rfl
@[simp] theorem loadRegisters_video (a : Nat) (x : Reg) : (loadRegisters s a x).video = s.video := rfl
@[simp] theorem loadRegisters_qShiftX (a : Nat) (x : Reg) : (loadRegisters s a x).qShiftX = s.qShiftX := rfl
@[simp] theorem loadRegisters_qLogicVF (a : Nat) (x : Reg) : (loadRegisters s a x).qLogicVF = s.qLogicVF := rfl
@[simp] theorem loadRegisters_mem (a : Nat) (x : Reg) : (loadRegisters s a x).mem = s.mem := rfl
@[simp] theorem loadRegisters_draws (a : Nat) (x : Reg) : (loadRegisters s a x).draws = s.draws := rfl

@[simp] theorem drawRandom_v : (drawRandom s).2.v = s.v := rfl
@[simp] theorem drawRandom_i : (drawRandom s).2.i = s.i := rfl
@[simp] theorem drawRandom_pc : (drawRandom s).2.pc = s.pc := rfl
@[simp] theorem drawRandom_stack : (drawRandom s).2.stack = s.stack := rfl
@[simp] theorem drawRandom_sp : (drawRandom s).2.sp = s.sp := rfl
@[simp] theorem drawRandom_dt : (drawRandom s).2.dt = s.dt := rfl
@[simp] theorem drawRandom_st : (drawRandom s).2.st = s.st := rfl
@[simp] theorem drawRandom_keypad : (drawRandom s).2.keypad = s.keypad := rfl
@[simp] theorem drawRandom_keylatch : (drawRandom s).2.keylatch = s.keylatch := rfl
@[simp] theorem drawRandom_video : (drawRandom s).2.video = s.video := rfl
@[simp] theorem drawRandom_qShiftX : (drawRandom s).2.qShiftX = s.qShiftX := rfl
@[simp] theorem drawRandom_qLogicVF : (drawRandom s).2.qLogicVF = s.qLogicVF := rfl
@[simp] theorem drawRandom_mem : (drawRandom s).2.mem = s.mem := rfl
@[simp] theorem drawRandom_draws : (drawRandom s).2.draws = s.draws + 1 := rfl

end

/-- What a draw gives: the free byte of this draw. -/
@[simp] theorem drawRandom_fst (s : State) : (drawRandom s).1 = Config.randomByte s.draws := rfl

/-- Reading a register depends on the register file alone. -/
theorem readV_eq (s : State) (x : Reg) : readV s x = s.v[x] := rfl

/-- Reading a byte depends on the memory alone. -/
theorem byteAt_eq (s : State) (a : Nat) : byteAt s a = Memory.read s.mem a := rfl

end Sys2Proof.Machine
end

