-- ==== Sys2Proof/Laws/Ops.lean ====
section
/-! SUPPORT. One lemma per shared operation that says once what it can do; proofs cite these instead of unfolding the
operation. -/

namespace Sys2Proof.Machine

/-! ### Registers -/

/-- A register after a write of a register (R21: they are independent). -/
theorem readV_writeV (s : State) (x : Reg) (b : Byte) (r : Reg) :
    readV (writeV s x b) r = if r = x then b else readV s r := by
  simp only [readV_eq, writeV_v, Fin.getElem_fin, Vector.getElem_set, Fin.ext_iff, eq_comm]

/-- A register after VF is written. -/
theorem readV_setFlag (s : State) (c : Bool) (r : Reg) :
    readV (setFlag s c) r = if r = vf then flagByte c else readV s r := readV_writeV s vf (flagByte c) r

/-- A register after a result and a flag are written: VF holds the flag, also when it is the destination (R179). -/
theorem readV_writeWithFlag (s : State) (x : Reg) (b : Byte) (c : Bool) (r : Reg) :
    readV (writeWithFlag s x b c) r = if r = vf then flagByte c else if r = x then b else readV s r := by
  rw [writeWithFlag, readV_setFlag, readV_writeV]

/-- A register after a logic operation (R171): VF is forced to 0 under the quirk. -/
theorem readV_writeLogic (s : State) (x : Reg) (b : Byte) (r : Reg) :
    readV (writeLogic s x b) r =
      if r = vf ∧ s.qLogicVF = true then 0 else if r = x then b else readV s r := by
  unfold writeLogic
  by_cases h : s.qLogicVF = true <;> simp [h, readV_writeWithFlag, readV_writeV, flagByte]

@[simp] theorem readV_setPc (s : State) (w : Word) (r : Reg) : readV (setPc s w) r = readV s r := rfl
@[simp] theorem readV_advance (s : State) (r : Reg) : readV (advance s) r = readV s r := rfl
@[simp] theorem readV_skipIf (s : State) (c : Bool) (r : Reg) : readV (skipIf c s) r = readV s r := rfl
@[simp] theorem readV_pushStack (s : State) (w : Word) (r : Reg) : readV (pushStack s w) r = readV s r := rfl
@[simp] theorem readV_popStack (s : State) (r : Reg) : readV (popStack s) r = readV s r := rfl
@[simp] theorem readV_storeBytes (s : State) (a : Nat) (bs : List Byte) (r : Reg) :
    readV (storeBytes s a bs) r = readV s r := rfl
@[simp] theorem readV_drawRandom (s : State) (r : Reg) : readV (drawRandom s).2 r = readV s r := rfl

/-- A register after a block load (R227). -/
theorem readV_loadRegisters (s : State) (a : Nat) (x r : Reg) :
    readV (loadRegisters s a x) r = if r ≤ x then byteAt s (a + r.val) else readV s r := by
  simp [readV_eq, loadRegisters]

/-- A flag byte is 0 or 1 (R22). -/
theorem flagByte_cases (c : Bool) : flagByte c = 0 ∨ flagByte c = 1 := by cases c <;> simp [flagByte]

/-! ### The call stack -/

/-- A stack entry after a push (R143). -/
theorem stack_pushStack (s : State) (w : Word) (k : Fin 16) :
    (pushStack s w).stack[k] = if k = s.sp + 1 then w else s.stack[k] := by
  simp only [pushStack_stack, Fin.getElem_fin, Vector.getElem_set, Fin.ext_iff, eq_comm]

/-- The newest entry after a push is what was pushed. -/
theorem topOfStack_pushStack (s : State) (w : Word) : topOfStack (pushStack s w) = w := by
  simp [topOfStack]

/-! ### Memory -/

@[simp] theorem byteAt_setPc (s : State) (w : Word) (a : Nat) : byteAt (setPc s w) a = byteAt s a := rfl
@[simp] theorem byteAt_advance (s : State) (a : Nat) : byteAt (advance s) a = byteAt s a := rfl
@[simp] theorem byteAt_skipIf (s : State) (c : Bool) (a : Nat) : byteAt (skipIf c s) a = byteAt s a := rfl
@[simp] theorem byteAt_writeV (s : State) (x : Reg) (b : Byte) (a : Nat) : byteAt (writeV s x b) a = byteAt s a := rfl
@[simp] theorem byteAt_setFlag (s : State) (c : Bool) (a : Nat) : byteAt (setFlag s c) a = byteAt s a := rfl
@[simp] theorem byteAt_writeWithFlag (s : State) (x : Reg) (b : Byte) (c : Bool) (a : Nat) :
    byteAt (writeWithFlag s x b c) a = byteAt s a := rfl
@[simp] theorem byteAt_writeLogic (s : State) (x : Reg) (b : Byte) (a : Nat) :
    byteAt (writeLogic s x b) a = byteAt s a := by simp [byteAt_eq]
@[simp] theorem byteAt_pushStack (s : State) (w : Word) (a : Nat) : byteAt (pushStack s w) a = byteAt s a := rfl
@[simp] theorem byteAt_popStack (s : State) (a : Nat) : byteAt (popStack s) a = byteAt s a := rfl
@[simp] theorem byteAt_loadRegisters (s : State) (b : Nat) (x : Reg) (a : Nat) :
    byteAt (loadRegisters s b x) a = byteAt s a := rfl
@[simp] theorem byteAt_drawRandom (s : State) (a : Nat) : byteAt (drawRandom s).2 a = byteAt s a := rfl

/-- A byte after bytes are stored: each at its address, every other as before (R67, R69). -/
theorem byteAt_storeBytes (s : State) (base : Nat) (bs : List Byte) (a : Nat) :
    byteAt (storeBytes s base bs) a = if h : base ≤ a ∧ a - base < bs.length then bs[a - base] else byteAt s a :=
  Memory.read_writeList bs s.mem base a

/-- Stored bytes inside memory keep its canonical form. -/
theorem wf_storeBytes {s : State} {base : Nat} {bs : List Byte} (h : Memory.wf s.mem = true)
    (hb : bs = [] ∨ base + bs.length ≤ 0x1000) : Memory.wf (storeBytes s base bs).mem = true :=
  Memory.wf_writeList h hb

@[simp] theorem length_loadBytes (s : State) (base n : Nat) : (loadBytes s base n).length = n := by
  induction n generalizing base with
  | zero => rfl
  | succ n ih => simp [loadBytes, ih]

/-- The bytes a block read gives (R65). -/
theorem getElem_loadBytes (s : State) (base n k : Nat) (h : k < (loadBytes s base n).length) :
    (loadBytes s base n)[k] = byteAt s (base + k) := by
  induction n generalizing base k with
  | zero => simp at h
  | succ n ih =>
    cases k with
    | zero => rfl
    | succ k =>
      simp only [loadBytes, List.getElem_cons_succ]
      rw [ih]; congr 1; omega

@[simp] theorem length_registersTo (s : State) (x : Reg) : (registersTo s x).length = x.val + 1 := by
  simp [registersTo]

/-- The registers a block store stores (R226). -/
theorem getElem_registersTo (s : State) (x : Reg) (k : Nat) (h : k < (registersTo s x).length) :
    (registersTo s x)[k] = readV s ⟨k, by simp at h; omega⟩ := by
  simp [registersTo, readV_eq]

/-- The digits of a byte in decimal (R225). -/
theorem length_bcdDigits (b : Byte) : (bcdDigits b).length = 3 := rfl

/-- R64: no fault exactly when no byte is needed or the last one is inside memory. -/
theorem rangeFault_eq_none (base count : Nat) : rangeFault base count = none ↔ count = 0 ∨ base + count ≤ 0x1000 := by
  unfold rangeFault
  split <;> simp <;> omega

/-- R64: the fault, when there is one, names the lowest offending address. -/
theorem rangeFault_eq_some (base count : Nat) (f : Fault) :
    rangeFault base count = some f ↔ (0 < count ∧ 0x1000 < base + count) ∧ f = .addressFault (max base 0x1000) := by
  unfold rangeFault
  split
  · simp only [Option.some.injEq, eq_comm]; constructor <;> intro h
    · exact ⟨by omega, h⟩
    · exact h.2
  · simp; omega

/-- A checked access that completes was inside memory. -/
theorem withRange_eq_next {base count : Nat} {k : Result} {t : State} :
    withRange base count k = .next t ↔ (count = 0 ∨ base + count ≤ 0x1000) ∧ k = .next t := by
  rw [← rangeFault_eq_none]
  unfold withRange raise
  cases rangeFault base count <;> simp

/-- A checked access that is inside memory goes on. -/
theorem withRange_inside {base count : Nat} (k : Result) (h : count = 0 ∨ base + count ≤ 0x1000) :
    withRange base count k = k := by
  unfold withRange
  rw [(rangeFault_eq_none base count).2 h]

/-- A checked access that reaches above 0xFFF faults. -/
theorem withRange_outside {base count : Nat} (k : Result) (h : 0 < count ∧ 0x1000 < base + count) :
    withRange base count k = .fault (.addressFault (max base 0x1000)) := by
  unfold withRange raise
  rw [(rangeFault_eq_some base count _).2 ⟨h, rfl⟩]

/-! ### The framebuffer -/

/-- A cell after one cell is toggled (R200). -/
theorem cellOf_toggleCell (video : Video) (k j : Nat) :
    cellOf (toggleCell video k) j = (cellOf video j ^^ decide (j = k ∧ k < 2048)) := by
  unfold cellOf toggleCell rowOf
  by_cases hj : j / 64 < 32
  · rw [dif_pos hj, dif_pos hj, Vector.getElem_setIfInBounds]
    split
    · next h =>
      rw [h, dif_pos hj, BitVec.getLsbD_xor, BitVec.getLsbD_twoPow]
      congr 1
      simp only [← Bool.decide_and, decide_eq_decide]
      omega
    · next h =>
      have : ¬ (j = k ∧ k < 2048) := by rintro ⟨rfl, -⟩; exact h rfl
      simp [this]
  · rw [dif_neg hj, dif_neg hj]
    have : ¬ (j = k ∧ k < 2048) := by omega
    simp [this]

/-- Every cell of a cleared framebuffer is 0 (R140). -/
theorem cellOf_clearVideo (k : Nat) : cellOf clearVideo k = false := by
  unfold cellOf rowOf clearVideo
  split <;> simp

/-- Two framebuffers with the same 2048 cells are the same. -/
theorem video_ext {v w : Video} (h : ∀ k, k < 2048 → cellOf v k = cellOf w k) : v = w := by
  ext y hy x hx
  have := h (64 * y + x) (by omega)
  unfold cellOf rowOf at this
  rw [show (64 * y + x) / 64 = y by omega, show (64 * y + x) % 64 = x by omega, dif_pos hy, dif_pos hy] at this
  rwa [BitVec.getLsbD_eq_getElem hx, BitVec.getLsbD_eq_getElem hx] at this

/-! ### The keypad -/

/-- The scan of `LD Vx,K` finds nothing exactly when no key is in the mask (R212). -/
theorem lowestKey_eq_none (mask : Word) : lowestKey mask = none ↔ mask = 0 := by
  simp only [lowestKey, List.find?_eq_none, List.mem_range]
  constructor
  · intro h; ext k hk
    simpa [BitVec.getLsbD_eq_getElem hk] using h k hk
  · rintro rfl k hk; simp

/-- The scan of `LD Vx,K` finds the least key in the mask (R214). -/
theorem lowestKey_eq_some (mask : Word) (k : Nat) :
    lowestKey mask = some k ↔ k < 16 ∧ mask.getLsbD k = true ∧ ∀ j, j < k → mask.getLsbD j = false := by
  simp only [lowestKey, List.find?_range_eq_some, List.mem_range, Bool.not_eq_true']
  tauto

/-- The key check lets 0..15 through (R213). -/
theorem withKey_eq_next {b : Byte} {k : Result} {t : State} : withKey b k = .next t ↔ b.toNat ≤ 15 ∧ k = .next t := by
  unfold withKey raise
  split <;> simp <;> omega

end Sys2Proof.Machine
end

