-- ==== Sys2Proof/Laws/Draw.lean ====
section
/-! SUPPORT. What drawing does: the cells of a sprite (R201 to R203), and the framebuffer and flag after toggling them (R200,
R204). -/

namespace Sys2Proof.Machine

/-- The cells of one sprite row: the set bits, bit 7 leftmost, wrapped modulo 64, on the screen (R201 to R203). -/
theorem mem_spriteRowCells (b : Byte) (x0 y k : Nat) :
    k ∈ spriteRowCells b x0 y ↔
      ∃ col, col < 8 ∧ b.getLsbD (7 - col) = true ∧ y ≤ 31 ∧ k = (x0 + col) % 64 + 64 * y := by
  simp only [spriteRowCells, List.mem_filterMap, List.mem_range]
  constructor
  · rintro ⟨col, hc, h⟩
    split at h
    · next hb => simp at hb h; exact ⟨col, hc, hb.1, hb.2, h.symm⟩
    · cases h
  · rintro ⟨col, hc, hb, hy, rfl⟩
    exact ⟨col, hc, by simp [hb, hy]⟩

/-- The cells of a sprite: row r of the data is screen row `y0 + r` (R200). -/
theorem mem_spriteCells (rows : List Byte) (x0 y0 k : Nat) :
    k ∈ spriteCells x0 y0 rows ↔
      ∃ r, ∃ h : r < rows.length, ∃ col, col < 8 ∧ rows[r].getLsbD (7 - col) = true ∧ y0 + r ≤ 31 ∧
        k = (x0 + col) % 64 + 64 * (y0 + r) := by
  induction rows generalizing y0 with
  | nil => simp [spriteCells]
  | cons b rows ih =>
    rw [spriteCells, List.mem_append, mem_spriteRowCells, ih]
    constructor
    · rintro (⟨col, h⟩ | ⟨r, hr, col, h⟩)
      · exact ⟨0, by simp, col, by simpa using h⟩
      · exact ⟨r + 1, by simpa using hr, col, by
          rw [show y0 + (r + 1) = y0 + 1 + r by omega]; simpa using h⟩
    · rintro ⟨r, hr, col, h⟩
      cases r with
      | zero => exact .inl ⟨col, by simpa using h⟩
      | succ r =>
        refine .inr ⟨r, by simpa using hr, col, ?_⟩
        rw [show y0 + (r + 1) = y0 + 1 + r by omega] at h
        simpa using h

/-- Within one row no cell is toggled twice: eight columns differ modulo 64 (R204). -/
theorem nodup_spriteRowCells (b : Byte) (x0 y : Nat) : (spriteRowCells b x0 y).Nodup := by
  unfold spriteRowCells List.Nodup
  rw [List.pairwise_filterMap]
  refine List.Pairwise.imp_of_mem ?_ (List.pairwise_lt_range (n := 8))
  intro c d hc hd hlt k hk k' hk' heq
  rw [List.mem_range] at hc hd
  split at hk <;> split at hk' <;> simp at hk hk'
  omega

/-- Within one draw no cell is toggled twice (R204). -/
theorem nodup_spriteCells (rows : List Byte) (x0 y0 : Nat) : (spriteCells x0 y0 rows).Nodup := by
  induction rows generalizing y0 with
  | nil => simp [spriteCells]
  | cons b rows ih =>
    rw [spriteCells, List.nodup_append]
    refine ⟨nodup_spriteRowCells b x0 y0, ih (y0 + 1), ?_⟩
    rintro k hk k' hk' rfl
    rw [mem_spriteRowCells] at hk
    rw [mem_spriteCells] at hk'
    obtain ⟨c, -, -, -, hk⟩ := hk
    obtain ⟨r, -, c', -, -, -, hk'⟩ := hk'
    omega

/-- A sprite's cells are on the screen (R202, R203). -/
theorem spriteCells_lt {rows : List Byte} {x0 y0 k : Nat} (h : k ∈ spriteCells x0 y0 rows) : k < 2048 := by
  obtain ⟨r, -, c, -, -, hy, rfl⟩ := (mem_spriteCells rows x0 y0 k).1 h
  omega

/-- The fold of a draw: each cell of the list is toggled once, and the flag collects the cells that were set (R204). -/
theorem foldl_plotCell {cells : List Nat} (hd : cells.Nodup) (hb : ∀ k ∈ cells, k < 2048) (acc : Video × Bool) :
    (∀ j, cellOf (cells.foldl plotCell acc).1 j = (cellOf acc.1 j ^^ decide (j ∈ cells))) ∧
      ((cells.foldl plotCell acc).2 = true ↔ acc.2 = true ∨ ∃ k ∈ cells, cellOf acc.1 k = true) := by
  induction cells generalizing acc with
  | nil => simp
  | cons k cells ih =>
    obtain ⟨hk, hd⟩ := List.nodup_cons.1 hd
    have hk' : k < 2048 := hb k (by simp)
    obtain ⟨h1, h2⟩ := ih hd (fun j hj => hb j (by simp [hj])) (plotCell acc k)
    rw [List.foldl_cons]
    refine ⟨fun j => ?_, ?_⟩
    · rw [h1, plotCell, cellOf_toggleCell]
      by_cases hj : j = k
      · subst hj; simp [hk, hk']
      · simp [hj]
    · rw [h2, plotCell]
      have hsame : ∀ j ∈ cells, cellOf (toggleCell acc.1 k) j = cellOf acc.1 j := by
        intro j hj
        rw [cellOf_toggleCell]
        have : j ≠ k := by rintro rfl; exact hk hj
        simp [this]
      simp only [Bool.or_eq_true, List.mem_cons, exists_eq_or_imp, or_assoc]
      refine or_congr_right (or_congr_right (exists_congr fun j => and_congr_right fun hj => ?_))
      rw [hsame j hj]

/-- What drawing a sprite does to each cell, and when it collides (R200, R204). -/
theorem plot_spriteCells (video : Video) (rows : List Byte) (x0 y0 : Nat) :
    (∀ j, cellOf (plot video (spriteCells x0 y0 rows)).1 j =
        (cellOf video j ^^ decide (j ∈ spriteCells x0 y0 rows))) ∧
      ((plot video (spriteCells x0 y0 rows)).2 = true ↔
        ∃ k ∈ spriteCells x0 y0 rows, cellOf video k = true) := by
  have h := foldl_plotCell (nodup_spriteCells rows x0 y0) (fun _ => spriteCells_lt) (video, false)
  exact ⟨h.1, by simpa [plot] using h.2⟩

end Sys2Proof.Machine
end

