-- ==== Sys2Proof/Laws/Fields.lean ====
section
/-! SUPPORT. What each field of R92 reads from a word of each format of R91. -/

namespace Sys2Proof

/-- The numeric value of a concatenation (R9). -/
theorem toNat_append_add {m n : Nat} (a : BitVec m) (b : BitVec n) : (a ++ b).toNat = a.toNat * 2 ^ n + b.toNat := by
  rw [BitVec.toNat_append, Nat.shiftLeft_eq, Nat.mul_comm, ← Nat.two_pow_add_eq_or_of_lt b.isLt]

variable (p : Nibble) (x y : Reg) (n : Nibble) (kk : Byte) (nnn : Addr12)

/-- The numeric value of a word of format `PNNN`. -/
theorem toNat_wordPNNN : (wordPNNN p nnn).toNat = p.toNat * 4096 + nnn.toNat := by
  unfold wordPNNN
  rw [toNat_append_add]
  omega

/-- The numeric value of a word of format `PXKK`. -/
theorem toNat_wordPXKK : (wordPXKK p x kk).toNat = p.toNat * 4096 + x.val * 256 + kk.toNat := by
  unfold wordPXKK regField
  rw [toNat_append_add, toNat_append_add]
  show (p.toNat * 2 ^ 4 + x.val) * 2 ^ 8 + kk.toNat = _
  omega

/-- The numeric value of a word of format `PXYN`. -/
theorem toNat_wordPXYN : (wordPXYN p x y n).toNat = p.toNat * 4096 + x.val * 256 + y.val * 16 + n.toNat := by
  unfold wordPXYN regField
  rw [toNat_append_add, toNat_append_add, toNat_append_add]
  show ((p.toNat * 2 ^ 4 + x.val) * 2 ^ 4 + y.val) * 2 ^ 4 + n.toNat = _
  omega

/-- The numeric value of each field of R92. -/
theorem toNat_fields (w : Word) :
    (fieldP w).toNat = w.toNat / 4096 ∧ (fieldX w).val = w.toNat / 256 % 16 ∧ (fieldY w).val = w.toNat / 16 % 16 ∧
      (fieldN w).toNat = w.toNat % 16 ∧ (fieldKK w).toNat = w.toNat % 256 ∧ (fieldNNN w).toNat = w.toNat % 4096 := by
  have hw := w.isLt
  have e : ∀ lo len, (w.extractLsb' lo len).toNat = w.toNat / 2 ^ lo % 2 ^ len := fun lo len => by
    rw [BitVec.extractLsb'_toNat, Nat.shiftRight_eq_div_pow]
  have hP := e 12 4
  have hN := e 0 4
  have hK := e 0 8
  have hA := e 0 12
  refine ⟨?_, e 8 4, e 4 4, ?_, ?_, ?_⟩
  · unfold fieldP; omega
  · unfold fieldN; omega
  · unfold fieldKK; omega
  · unfold fieldNNN; omega

theorem fieldP_wordPNNN : fieldP (wordPNNN p nnn) = p := by
  apply BitVec.eq_of_toNat_eq
  have := toNat_fields (wordPNNN p nnn)
  have := toNat_wordPNNN p nnn
  omega

theorem fieldNNN_wordPNNN : fieldNNN (wordPNNN p nnn) = nnn := by
  apply BitVec.eq_of_toNat_eq
  have := toNat_fields (wordPNNN p nnn)
  have := toNat_wordPNNN p nnn
  omega

theorem fieldP_wordPXKK : fieldP (wordPXKK p x kk) = p := by
  apply BitVec.eq_of_toNat_eq
  have := toNat_fields (wordPXKK p x kk)
  have := toNat_wordPXKK p x kk
  omega

theorem fieldX_wordPXKK : fieldX (wordPXKK p x kk) = x := by
  apply Fin.ext
  have := toNat_fields (wordPXKK p x kk)
  have := toNat_wordPXKK p x kk
  omega

theorem fieldKK_wordPXKK : fieldKK (wordPXKK p x kk) = kk := by
  apply BitVec.eq_of_toNat_eq
  have := toNat_fields (wordPXKK p x kk)
  have := toNat_wordPXKK p x kk
  omega

theorem fieldP_wordPXYN : fieldP (wordPXYN p x y n) = p := by
  apply BitVec.eq_of_toNat_eq
  have := toNat_fields (wordPXYN p x y n)
  have := toNat_wordPXYN p x y n
  omega

theorem fieldX_wordPXYN : fieldX (wordPXYN p x y n) = x := by
  apply Fin.ext
  have := toNat_fields (wordPXYN p x y n)
  have := toNat_wordPXYN p x y n
  omega

theorem fieldY_wordPXYN : fieldY (wordPXYN p x y n) = y := by
  apply Fin.ext
  have := toNat_fields (wordPXYN p x y n)
  have := toNat_wordPXYN p x y n
  omega

theorem fieldN_wordPXYN : fieldN (wordPXYN p x y n) = n := by
  apply BitVec.eq_of_toNat_eq
  have := toNat_fields (wordPXYN p x y n)
  have := toNat_wordPXYN p x y n
  omega

/-- The two bytes of a word make the word again (R66). -/
theorem wordOfBytes_high_low (w : Word) : wordOfBytes (highByte w) (lowByte w) = w := by
  apply BitVec.eq_of_toNat_eq
  have hw := w.isLt
  unfold wordOfBytes highByte lowByte
  rw [toNat_append_add]
  simp only [BitVec.extractLsb'_toNat, Nat.shiftRight_eq_div_pow]
  omega

end Sys2Proof
end

