-- ==== Sys2Proof/Laws/PerInstr.lean ====
section
/-! SUPPORT. Per-instruction laws. Family `RowMatch`: the word the encoder gives an instruction satisfies the match and mask of
the instruction's row of R95, as the table writes it. -/

namespace Sys2Proof.Laws.RowMatch

/-- R95: `op & mask == match` for the instruction's own word. -/
def Statement (i : Instr) : Prop := encode i &&& (opcodeRow i).mask = (opcodeRow i).pat

/-- The bits of a word of format `PNNN`. -/
theorem getLsbD_wordPNNN (p : Nibble) (nnn : Addr12) (i : Nat) :
    (wordPNNN p nnn).getLsbD i = if i < 12 then nnn.getLsbD i else p.getLsbD (i - 12) :=
  BitVec.getLsbD_append (x := p) (y := nnn) (i := i)

/-- The bits of a word of format `PXKK`. -/
theorem getLsbD_wordPXKK (p : Nibble) (x : Reg) (kk : Byte) (i : Nat) :
    (wordPXKK p x kk).getLsbD i =
      if i < 8 then kk.getLsbD i else if i - 8 < 4 then (regField x).getLsbD (i - 8) else p.getLsbD (i - 8 - 4) := by
  rw [← BitVec.getLsbD_append (x := p) (y := regField x)]
  exact BitVec.getLsbD_append (x := p ++ regField x) (y := kk) (i := i)

/-- The bits of a word of format `PXYN`. -/
theorem getLsbD_wordPXYN (p : Nibble) (x y : Reg) (n : Nibble) (i : Nat) :
    (wordPXYN p x y n).getLsbD i =
      if i < 4 then n.getLsbD i else if i - 4 < 4 then (regField y).getLsbD (i - 4)
      else if i - 4 - 4 < 4 then (regField x).getLsbD (i - 4 - 4) else p.getLsbD (i - 4 - 4 - 4) := by
  rw [← BitVec.getLsbD_append (x := p) (y := regField x), ← BitVec.getLsbD_append (x := p ++ regField x) (y := regField y)]
  exact BitVec.getLsbD_append (x := p ++ regField x ++ regField y) (y := n) (i := i)

/-- A word of format `PNNN` under the mask 0xF000 is its family. -/
theorem mask_PNNN (p : Nibble) (nnn : Addr12) : wordPNNN p nnn &&& 0xF000 = wordPNNN p 0 := by
  apply BitVec.eq_of_getLsbD_eq
  intro i hi
  simp only [BitVec.getLsbD_and, getLsbD_wordPNNN]
  interval_cases i <;> simp

/-- A word of format `PXKK` under the mask 0xF000 is its family. -/
theorem mask_PXKK (p : Nibble) (x : Reg) (kk : Byte) : wordPXKK p x kk &&& 0xF000 = wordPXKK p 0 0 := by
  apply BitVec.eq_of_getLsbD_eq
  intro i hi
  simp only [BitVec.getLsbD_and, getLsbD_wordPXKK]
  interval_cases i <;> simp [regField]

/-- A word of format `PXKK` under the mask 0xF0FF is its family and selector. -/
theorem mask_PXKK_selector (p : Nibble) (x : Reg) (kk : Byte) : wordPXKK p x kk &&& 0xF0FF = wordPXKK p 0 kk := by
  apply BitVec.eq_of_getLsbD_eq
  intro i hi
  simp only [BitVec.getLsbD_and, getLsbD_wordPXKK]
  interval_cases i <;> simp [regField]

/-- A word of format `PXYN` under the mask 0xF00F is its family and selector. -/
theorem mask_PXYN_selector (p : Nibble) (x y : Reg) (n : Nibble) : wordPXYN p x y n &&& 0xF00F = wordPXYN p 0 0 n := by
  apply BitVec.eq_of_getLsbD_eq
  intro i hi
  simp only [BitVec.getLsbD_and, getLsbD_wordPXYN]
  interval_cases i <;> simp [regField]

/-- A word of format `PXYN` under the mask 0xF000 is its family. -/
theorem mask_PXYN (p : Nibble) (x y : Reg) (n : Nibble) : wordPXYN p x y n &&& 0xF000 = wordPXYN p 0 0 0 := by
  apply BitVec.eq_of_getLsbD_eq
  intro i hi
  simp only [BitVec.getLsbD_and, getLsbD_wordPXYN]
  interval_cases i <;> simp [regField]

theorem cls : Statement (.cls) := rfl
theorem ret : Statement (.ret) := rfl
theorem jp (nnn : Addr12) : Statement (.jp nnn) := mask_PNNN _ _
theorem call (nnn : Addr12) : Statement (.call nnn) := mask_PNNN _ _
theorem seVxKk (x : Reg) (kk : Byte) : Statement (.seVxKk x kk) := mask_PXKK _ _ _
theorem sneVxKk (x : Reg) (kk : Byte) : Statement (.sneVxKk x kk) := mask_PXKK _ _ _
theorem seVxVy (x : Reg) (y : Reg) : Statement (.seVxVy x y) := mask_PXYN_selector _ _ _ _
theorem ldVxKk (x : Reg) (kk : Byte) : Statement (.ldVxKk x kk) := mask_PXKK _ _ _
theorem addVxKk (x : Reg) (kk : Byte) : Statement (.addVxKk x kk) := mask_PXKK _ _ _
theorem ldVxVy (x : Reg) (y : Reg) : Statement (.ldVxVy x y) := mask_PXYN_selector _ _ _ _
theorem orVxVy (x : Reg) (y : Reg) : Statement (.orVxVy x y) := mask_PXYN_selector _ _ _ _
theorem andVxVy (x : Reg) (y : Reg) : Statement (.andVxVy x y) := mask_PXYN_selector _ _ _ _
theorem xorVxVy (x : Reg) (y : Reg) : Statement (.xorVxVy x y) := mask_PXYN_selector _ _ _ _
theorem addVxVy (x : Reg) (y : Reg) : Statement (.addVxVy x y) := mask_PXYN_selector _ _ _ _
theorem subVxVy (x : Reg) (y : Reg) : Statement (.subVxVy x y) := mask_PXYN_selector _ _ _ _
theorem shrVxVy (x : Reg) (y : Reg) : Statement (.shrVxVy x y) := mask_PXYN_selector _ _ _ _
theorem subnVxVy (x : Reg) (y : Reg) : Statement (.subnVxVy x y) := mask_PXYN_selector _ _ _ _
theorem shlVxVy (x : Reg) (y : Reg) : Statement (.shlVxVy x y) := mask_PXYN_selector _ _ _ _
theorem sneVxVy (x : Reg) (y : Reg) : Statement (.sneVxVy x y) := mask_PXYN_selector _ _ _ _
theorem ldINnn (nnn : Addr12) : Statement (.ldINnn nnn) := mask_PNNN _ _
theorem jpV0Nnn (nnn : Addr12) : Statement (.jpV0Nnn nnn) := mask_PNNN _ _
theorem rndVxKk (x : Reg) (kk : Byte) : Statement (.rndVxKk x kk) := mask_PXKK _ _ _
theorem drwVxVyN (x : Reg) (y : Reg) (n : Nibble) : Statement (.drwVxVyN x y n) := mask_PXYN _ _ _ _
theorem skpVx (x : Reg) : Statement (.skpVx x) := mask_PXKK_selector _ _ _
theorem sknpVx (x : Reg) : Statement (.sknpVx x) := mask_PXKK_selector _ _ _
theorem ldVxDt (x : Reg) : Statement (.ldVxDt x) := mask_PXKK_selector _ _ _
theorem ldVxK (x : Reg) : Statement (.ldVxK x) := mask_PXKK_selector _ _ _
theorem ldDtVx (x : Reg) : Statement (.ldDtVx x) := mask_PXKK_selector _ _ _
theorem ldStVx (x : Reg) : Statement (.ldStVx x) := mask_PXKK_selector _ _ _
theorem addIVx (x : Reg) : Statement (.addIVx x) := mask_PXKK_selector _ _ _
theorem ldFVx (x : Reg) : Statement (.ldFVx x) := mask_PXKK_selector _ _ _
theorem ldBVx (x : Reg) : Statement (.ldBVx x) := mask_PXKK_selector _ _ _
theorem ldMemVx (x : Reg) : Statement (.ldMemVx x) := mask_PXKK_selector _ _ _
theorem ldVxMem (x : Reg) : Statement (.ldVxMem x) := mask_PXKK_selector _ _ _

end Sys2Proof.Laws.RowMatch
end

