-- ==== Sys2Proof/Laws/Step.lean ====
section
/-! SUPPORT. What a step can do, said once; and the induction over a run of events, once. -/

namespace Sys2Proof.Machine

/-- A word is fetched exactly when both its bytes lie in memory (R121). -/
theorem fetchWord_eq_ok (s : State) (w : Word) :
    fetchWord s = .ok w ↔
      s.pc.toNat ≤ 0xFFE ∧ w = wordOfBytes (byteAt s s.pc.toNat) (byteAt s (s.pc.toNat + 1)) := by
  unfold fetchWord
  split
  · next f hf =>
    have := ((rangeFault_eq_some _ _ _).1 hf).1
    simp; omega
  · next hf =>
    have := (rangeFault_eq_none _ _).1 hf
    simp only [Except.ok.injEq, eq_comm (a := w)]
    constructor
    · exact fun h => ⟨by omega, h⟩
    · exact fun h => h.2

/-- An instruction is fetched exactly when a word is and it decodes (R122). -/
theorem fetchInstr_eq_ok (s : State) (i : Instr) :
    fetchInstr s = .ok i ↔ ∃ w, fetchWord s = .ok w ∧ decodeWord w = some i := by
  unfold fetchInstr
  cases fetchWord s with
  | error f => simp
  | ok w => cases h : decodeWord w <;> simp [h]

/-- Where an instruction is fetched, its word lies in memory. -/
theorem pc_le_of_fetchInstr {s : State} {i : Instr} (h : fetchInstr s = .ok i) : s.pc.toNat ≤ 0xFFE := by
  obtain ⟨w, hw, -⟩ := (fetchInstr_eq_ok s i).1 h
  exact ((fetchWord_eq_ok s w).1 hw).1

/-- A step answers a next state exactly when the fetched instruction does (R120). -/
theorem step_eq_next (s t : State) : step s = .next t ↔ ∃ i, fetchInstr s = .ok i ∧ exec i s = .next t := by
  unfold step raise
  cases fetchInstr s <;> simp

/-- What every event keeps, every run keeps. -/
theorem sendAll_keeps {P : State → Prop} {q : QuirkDefaults} (h : ∀ e s, P s → P (send q e s).1) (es : List Event)
    (s : State) (hs : P s) : P (sendAll q es s).1 := by
  induction es generalizing s with
  | nil => exact hs
  | cons e es ih => exact ih _ (h e s hs)

end Sys2Proof.Machine
end

