-- ==== Sys2Proof/Tests/Slice0.lean ====
section
/-! SUPPORT. The model's own tests. Expected results come from the spec: the words from the opcode map R95, the step vectors from
spec/95_test_vectors.md, whose id stands beside each. Then, for every statement with hypotheses, a state and operands that meet
them together, at the boundaries of each clause. -/

namespace Sys2Proof.Tests

open Sys2Proof.Machine

/-! ### Helpers -/

/-- Some registers set. -/
def withV (rs : List (Reg × Byte)) (s : State) : State := rs.foldl (fun s p => writeV s p.1 p.2) s

/-- The start state of the vectors, with some registers set. -/
def start (rs : List (Reg × Byte)) : State := withV rs State.reset

/-- The word `w` at `pc` steps to a state with this property. -/
def after (w : Nat) (s : State) (p : State → Bool) : Bool :=
  match step (s.withFetchWord 16 w) with
  | .next t => p t
  | _ => false

/-- The word `w` at `pc` steps to this fault. -/
def faults (w : Nat) (s : State) (f : Fault) : Bool :=
  match step (s.withFetchWord 16 w) with
  | .fault g => g == f
  | _ => false

/-- Some registers of a state hold these values. -/
def holds (rs : List (Reg × Byte)) (t : State) : Bool := rs.all fun p => readV t p.1 == p.2

/-- A framebuffer with one row lit; bit x of the row is column x. -/
def oneRow (y : Fin 32) (row : BitVec 64) : Video := (Vector.replicate 32 0).set y row

/-! ### Well-formedness (R98, R283) -/

theorem test_ill_formed_family_0 : wellFormedWord 0x0123 = false := by decide
theorem test_ill_formed_family_5 : wellFormedWord 0x5121 = false := by decide
theorem test_ill_formed_family_8 : wellFormedWord 0x8128 = false := by decide
theorem test_ill_formed_family_9 : wellFormedWord 0x912F = false := by decide
theorem test_ill_formed_family_E : wellFormedWord 0xE09F = false := by decide
theorem test_ill_formed_family_F : wellFormedWord 0xF308 = false := by decide
theorem test_well_formed_word : wellFormedWord 0xD123 = true := by decide
theorem test_ill_formed_image : wellFormedImage (List.replicate 3585 0) = false := by
  rw [wellFormedImage, List.length_replicate]; decide
theorem test_well_formed_image : wellFormedImage (List.replicate 3584 0) = true := by
  rw [wellFormedImage, List.length_replicate]; decide

/-! ### Decoding: one word of each row, written out from R95 -/

theorem test_decode_cls : decodeWord 0x00E0 = some .cls := by decide
theorem test_decode_ret : decodeWord 0x00EE = some .ret := by decide
theorem test_decode_jp : decodeWord 0x1ABC = some (.jp 0xABC) := by decide
theorem test_decode_call : decodeWord 0x2210 = some (.call 0x210) := by decide
theorem test_decode_seVxKk : decodeWord 0x3A42 = some (.seVxKk 10 0x42) := by decide
theorem test_decode_sneVxKk : decodeWord 0x4A42 = some (.sneVxKk 10 0x42) := by decide
theorem test_decode_seVxVy : decodeWord 0x5120 = some (.seVxVy 1 2) := by decide
theorem test_decode_ldVxKk : decodeWord 0x6A7F = some (.ldVxKk 10 0x7F) := by decide
theorem test_decode_addVxKk : decodeWord 0x71FF = some (.addVxKk 1 0xFF) := by decide
theorem test_decode_ldVxVy : decodeWord 0x8AF0 = some (.ldVxVy 10 15) := by decide
theorem test_decode_orVxVy : decodeWord 0x8F11 = some (.orVxVy 15 1) := by decide
theorem test_decode_andVxVy : decodeWord 0x8122 = some (.andVxVy 1 2) := by decide
theorem test_decode_xorVxVy : decodeWord 0x81F3 = some (.xorVxVy 1 15) := by decide
theorem test_decode_addVxVy : decodeWord 0x8F14 = some (.addVxVy 15 1) := by decide
theorem test_decode_subVxVy : decodeWord 0x8125 = some (.subVxVy 1 2) := by decide
theorem test_decode_shrVxVy : decodeWord 0x8126 = some (.shrVxVy 1 2) := by decide
theorem test_decode_subnVxVy : decodeWord 0x8127 = some (.subnVxVy 1 2) := by decide
theorem test_decode_shlVxVy : decodeWord 0x812E = some (.shlVxVy 1 2) := by decide
theorem test_decode_sneVxVy : decodeWord 0x9120 = some (.sneVxVy 1 2) := by decide
theorem test_decode_ldINnn : decodeWord 0xA123 = some (.ldINnn 0x123) := by decide
theorem test_decode_jpV0Nnn : decodeWord 0xB300 = some (.jpV0Nnn 0x300) := by decide
theorem test_decode_rndVxKk : decodeWord 0xC30F = some (.rndVxKk 3 0x0F) := by decide
theorem test_decode_drwVxVyN : decodeWord 0xD125 = some (.drwVxVyN 1 2 5) := by decide
theorem test_decode_skpVx : decodeWord 0xE39E = some (.skpVx 3) := by decide
theorem test_decode_sknpVx : decodeWord 0xE3A1 = some (.sknpVx 3) := by decide
theorem test_decode_ldVxDt : decodeWord 0xF307 = some (.ldVxDt 3) := by decide
theorem test_decode_ldVxK : decodeWord 0xF10A = some (.ldVxK 1) := by decide
theorem test_decode_ldDtVx : decodeWord 0xF315 = some (.ldDtVx 3) := by decide
theorem test_decode_ldStVx : decodeWord 0xF318 = some (.ldStVx 3) := by decide
theorem test_decode_addIVx : decodeWord 0xF21E = some (.addIVx 2) := by decide
theorem test_decode_ldFVx : decodeWord 0xF429 = some (.ldFVx 4) := by decide
theorem test_decode_ldBVx : decodeWord 0xF033 = some (.ldBVx 0) := by decide
theorem test_decode_ldMemVx : decodeWord 0xF255 = some (.ldMemVx 2) := by decide
theorem test_decode_ldVxMem : decodeWord 0xF265 = some (.ldVxMem 2) := by decide

/-- R66: the first byte is the high one. -/
theorem test_decode_bytes_big_endian : (decode [0xD1, 0x25, 0x77]).toOption = some (.drwVxVyN 1 2 5, [0x77]) := by decide
theorem test_decode_truncated : (decode [0xD1]).toOption = none := by decide
theorem test_encode_bytes : encodeBytes (.drwVxVyN 1 2 5) = [0xD1, 0x25] := by decide
theorem test_decode_table_word : decodeTableWord 16 0xD125 = some (.drwVxVyN 1 2 5) := by decide

/-! ### Fetch and unknown words: X2, X6, X8, X10, X12 to X16 -/

theorem test_X2 : faults 0x0123 State.reset (.unknownOpcode 0x0123 0x200) = true := by decide
theorem test_X6 : faults 0x8128 State.reset (.unknownOpcode 0x8128 0x200) = true := by decide
theorem test_X8 : faults 0xE09F State.reset (.unknownOpcode 0xE09F 0x200) = true := by decide
theorem test_X10 : faults 0xF308 State.reset (.unknownOpcode 0xF308 0x200) = true := by decide
theorem test_X12 : (execute (setPc State.reset 0xFFF)).2 = .fault (.addressFault 0x1000) := by decide
theorem test_X13 : (execute (setPc State.reset 0x1000)).2 = .fault (.addressFault 0x1000) := by decide
theorem test_X14 : after 0x6A55 (setPc State.reset 0xFFE) (fun t => t.pc == 0x1000 && readV t 10 == 0x55) = true := by decide
theorem test_X15 : after 0x6A55 (setPc State.reset 0x201) (fun t => t.pc == 0x203 && readV t 10 == 0x55) = true := by decide
theorem test_X16 : (execute State.powerOn).2 = .fault (.unknownOpcode 0 0) := by
  have b : ∀ a, byteAt State.powerOn a = 0 := fun a => by
    rw [byteAt, State.powerOn, Memory.read_zeroed]
  simp only [execute, step, fetchInstr, fetchWord, b]
  rfl

/-! ### Families 0, 1, 2 -/

theorem test_F1_cls : after 0x00E0 { State.reset with video := oneRow 31 0x8000000000000001 }
    (fun t => t.video == Vector.replicate 32 0 && t.pc == 0x202) = true := by decide
theorem test_F2_ret : after 0x00EE { State.reset with pc := 0x212, sp := 1, stack := State.reset.stack.set 1 0x204 }
    (fun t => t.pc == 0x206 && t.sp == 0 && t.stack[1] == 0x204) = true := by decide
theorem test_F3_ret : faults 0x00EE (setPc State.reset 0x212) (.stackUnderflow 0x212) = true := by decide
theorem test_F4_jp : after 0x1ABC State.reset (fun t => t.pc == 0xABC) = true := by decide
theorem test_F7_call : after 0x2300 { State.reset with pc := 0x250, sp := 14 }
    (fun t => t.pc == 0x300 && t.sp == 15 && t.stack[15] == 0x250) = true := by decide
theorem test_F8_call : faults 0x2300 { State.reset with pc := 0x250, sp := 15 } (.stackOverflow 0x250) = true := by decide

/-! ### Skips and immediates -/

theorem test_KS1_se : after 0x3A42 (start [(10, 0x42)]) (fun t => t.pc == 0x204) = true := by decide
theorem test_KS11_se_at_the_top : after 0x3000 (setPc State.reset 0xFFE) (fun t => t.pc == 0x1002) = true := by decide
theorem test_KS3_sne : after 0x4A42 (start [(10, 0x42)]) (fun t => t.pc == 0x202) = true := by decide
theorem test_KS4_sne : after 0x4A42 (start [(10, 0x43)]) (fun t => t.pc == 0x204) = true := by decide
theorem test_KS6_se : after 0x5120 (start [(1, 7), (2, 8)]) (fun t => t.pc == 0x202) = true := by decide
theorem test_KS7_se : after 0x5330 (start [(3, 9)]) (fun t => t.pc == 0x204) = true := by decide
theorem test_KS9_sne : after 0x9120 (start [(1, 7), (2, 8)]) (fun t => t.pc == 0x204) = true := by decide
theorem test_KS10_sne : after 0x9330 (start [(3, 9)]) (fun t => t.pc == 0x202) = true := by decide
theorem test_I2_ld : after 0x6F05 (start [(15, 1)]) (fun t => holds [(15, 5)] t && t.pc == 0x202) = true := by decide
theorem test_I4_add : after 0x7101 (start [(1, 0xFF), (15, 1)]) (fun t => holds [(1, 0), (15, 1)] t) = true := by decide
theorem test_I7_add : after 0x7F01 (start [(15, 0xFF)]) (fun t => holds [(15, 0)] t) = true := by decide

/-! ### Family 8 -/

theorem test_A39_ld : after 0x8AF0 { start [(15, 1)] with qLogicVF := true } (fun t => holds [(10, 1), (15, 1)] t) = true := by decide
theorem test_A31_or : after 0x8121 { start [(1, 0x0F), (2, 0xF0), (15, 1)] with qLogicVF := true }
    (fun t => holds [(1, 0xFF), (15, 0)] t) = true := by decide
theorem test_A35_or : after 0x8F11 (start [(15, 1), (1, 6)]) (fun t => holds [(15, 7)] t) = true := by decide
theorem test_A32_and : after 0x8122 { start [(1, 0x3C), (2, 0x0F), (15, 1)] with qLogicVF := true }
    (fun t => holds [(1, 0x0C), (15, 0)] t) = true := by decide
theorem test_A33_xor : after 0x8123 (start [(1, 0xFF), (2, 0x0F), (15, 1)]) (fun t => holds [(1, 0xF0), (15, 1)] t) = true := by decide
theorem test_A37_xor : after 0x81F3 { start [(15, 1), (1, 6)] with qLogicVF := true }
    (fun t => holds [(1, 7), (15, 0)] t) = true := by decide
theorem test_A3_add : after 0x8124 (start [(1, 0xFE), (2, 1), (15, 1)]) (fun t => holds [(1, 0xFF), (15, 0)] t) = true := by decide
theorem test_A6_add : after 0x8F14 (start [(15, 0xF0), (1, 0x20)]) (fun t => holds [(15, 1)] t) = true := by decide
theorem test_A10_sub : after 0x8125 (start [(1, 3), (2, 5), (15, 1)]) (fun t => holds [(1, 0xFE), (15, 0)] t) = true := by decide
theorem test_A11_sub : after 0x8125 (start [(1, 7), (2, 7)]) (fun t => holds [(1, 0), (15, 1)] t) = true := by decide
theorem test_A19_shr : after 0x8126 (start [(1, 0xFF), (2, 4), (15, 1)])
    (fun t => holds [(1, 2), (2, 4), (15, 0)] t) = true := by decide
theorem test_A23_shr : after 0x8F26 { start [(2, 5), (15, 0x80)] with qShiftX := true } (fun t => holds [(15, 0)] t) = true := by decide
theorem test_A16_subn : after 0x8127 (start [(1, 3), (2, 5)]) (fun t => holds [(1, 2), (15, 1)] t) = true := by decide
theorem test_A17_subn : after 0x8127 (start [(1, 5), (2, 3), (15, 1)]) (fun t => holds [(1, 0xFE), (15, 0)] t) = true := by decide
theorem test_A25_shl : after 0x812E (start [(2, 0xC1)]) (fun t => holds [(1, 0x82), (2, 0xC1), (15, 1)] t) = true := by decide
theorem test_A26_shl : after 0x812E { start [(2, 0xC1), (15, 1)] with qShiftX := true } (fun t => holds [(1, 0), (15, 0)] t) = true := by decide

/-! ### Families A, B, C -/

theorem test_J1_ld : after 0xA123 State.reset (fun t => t.i == 0x123 && t.pc == 0x202) = true := by decide
theorem test_J4_jp : after 0xBFFF (start [(0, 0xFF)]) (fun t => t.pc == 0x10FE) = true := by decide
theorem test_rnd_draws_once : after 0xC300 State.reset (fun t => t.draws == 1 && t.pc == 0x202) = true := by decide

/-! ### Family D -/

theorem test_D3_drw_wraps : after 0xD011 { start [(0, 60)] with i := 0x300, mem := Memory.write [] 0x300 0xFF }
    (fun t => t.video == oneRow 0 0xF00000000000000F && readV t 15 == 0) = true := by decide
theorem test_D11_drw_collides : after 0xD011 { State.reset with i := 0x300, mem := Memory.write [] 0x300 0xC0, video := oneRow 0 6 }
    (fun t => t.video == oneRow 0 5 && readV t 15 == 1 && t.pc == 0x202) = true := by decide
theorem test_D7_drw_clips : after 0xD012 { start [(1, 31)] with i := 0x300, mem := Memory.writeList [] 0x300 [0x80, 0x80] }
    (fun t => t.video == oneRow 31 1 && readV t 15 == 0) = true := by decide
theorem test_D17_drw_old_VF : after 0xDF11 { start [(15, 3), (1, 2)] with i := 0x300, mem := Memory.write [] 0x300 0x80 }
    (fun t => t.video == oneRow 2 8 && readV t 15 == 0) = true := by decide

/-! ### Family E and FX0A -/

theorem test_K1_skp : after 0xE09E { start [(0, 5)] with pc := 0x300, keypad := 0x20 } (fun t => t.pc == 0x304) = true := by decide
theorem test_K6_skp : faults 0xE09E { start [(0, 16)] with keypad := 0xFFFF } (.keyIndexFault 16) = true := by decide
theorem test_K3_sknp : after 0xE0A1 { start [(0, 5)] with pc := 0x300, keypad := 0x20 } (fun t => t.pc == 0x302) = true := by decide
theorem test_K4_sknp : after 0xE0A1 { start [(0, 4)] with pc := 0x300, keypad := 0x20 } (fun t => t.pc == 0x304) = true := by decide
theorem test_K15_ld_k : after 0xF10A { State.reset with keypad := 0x0100, keylatch := 0x0088 }
    (fun t => holds [(1, 3)] t && t.keylatch == 0 && t.pc == 0x202) = true := by decide
theorem test_K16_ld_k : after 0xF10A { State.reset with keypad := 9, keylatch := 8 }
    (fun t => t.keylatch == 9 && t.pc == 0x200) = true := by decide

/-! ### Family F -/

theorem test_T1_ld_dt : after 0xF307 { State.reset with dt := 0x2A } (fun t => holds [(3, 0x2A)] t && t.dt == 0x2A) = true := by decide
theorem test_T2_ld_dt : after 0xF315 (start [(3, 0x3C)]) (fun t => t.dt == 0x3C && t.st == 0) = true := by decide
theorem test_T3_ld_st : after 0xF318 (start [(3, 5)]) (fun t => t.st == 5 && t.dt == 0) = true := by decide
theorem test_T5_add_i : after 0xF21E { start [(2, 0x20)] with i := 0xFF0 } (fun t => t.i == 0x1010 && readV t 15 == 0) = true := by decide
theorem test_T6_add_i : after 0xF21E { start [(2, 2)] with i := 0xFFFF } (fun t => t.i == 1) = true := by decide
theorem test_T9_ld_f : after 0xF429 (start [(4, 0x0F)]) (fun t => t.i == 0x4B) = true := by decide
theorem test_T11_ld_f : after 0xF429 (start [(4, 0xFF)]) (fun t => t.i == 0x4FB) = true := by decide
theorem test_T12_ld_b : after 0xF033 { start [(0, 0xEA)] with i := 0x300 }
    (fun t => loadBytes t 0x300 4 == [2, 3, 4, 0] && t.i == 0x300) = true := by decide
theorem test_T17_ld_b : faults 0xF033 { start [(0, 9)] with i := 0xFFE } (.addressFault 0x1000) = true := by decide
theorem test_T19_store : after 0xF255 { start [(0, 0x11), (1, 0x22), (2, 0x33), (3, 0x44)] with i := 0x400 }
    (fun t => loadBytes t 0x400 4 == [0x11, 0x22, 0x33, 0] && t.i == 0x400) = true := by decide
theorem test_T21_store : faults 0xF155 { State.reset with i := 0xFFF } (.addressFault 0x1000) = true := by decide
theorem test_T24_load : after 0xF265 { start [(3, 0x77)] with i := 0x300, mem := Memory.writeList [] 0x300 [2, 3, 4, 5] }
    (fun t => holds [(0, 2), (1, 3), (2, 4), (3, 0x77)] t && t.i == 0x300) = true := by decide
theorem test_T26_load : faults 0xF165 { State.reset with i := 0xFFF } (.addressFault 0x1000) = true := by decide

/-! ### Events: H3, H4, H7, H8, H14, H15 -/

theorem test_H3 : (timerTick { State.reset with dt := 1, st := 2 }).1 = { State.reset with st := 1 } ∧
    (timerTick { State.reset with dt := 1, st := 2 }).2 = .ok := by decide
theorem test_H4 : (timerTick { State.reset with st := 1 }).2 = .beepStop ∧ (timerTick { State.reset with st := 1 }).1 = State.reset := by decide
theorem test_H7 : (keySet 4 { State.reset with keypad := 1 }).keypad = 0x0011 := by decide
theorem test_H8 : (keyClear 0 { State.reset with keypad := 0x0011 }).keypad = 0x0010 := by decide
theorem test_H14 : hostReset ⟨true, false⟩ { start [(3, 7)] with i := 0x300, sp := 2, keylatch := 4, mem := [(0x200, 0x60)] } =
    { State.reset with qShiftX := true, mem := [(0x200, 0x60)] } := by decide
theorem test_H15 : hostInitialise ⟨false, false⟩ { State.reset with mem := [(5, 0), (0x200, 0x60)] } = State.reset := by decide
theorem test_H11_load : hostLoad [0x12, 0x34] { State.reset with mem := [(0x202, 0xCC)] } =
    .next { State.reset with mem := [(0x200, 0x12), (0x201, 0x34), (0x202, 0xCC)] } := rfl

/-! ### Witnesses: each statement's hypotheses met together, each clause at a boundary -/

/-- `FetchIsBigEndianAndFaultsAboveMemory`, `AddressFaultTable`: the last address a word can be fetched from, and the two after it. -/
theorem test_witness_fetch_edges : (setPc State.reset 0xFFE).pc.toNat ≤ 0xFFE ∧ (setPc State.reset 0xFFF).pc.toNat = 0xFFF ∧
    (setPc State.reset 0x1000).pc.toNat ≥ 0x1000 := by decide

/-- `StepRunsTheDecodedInstruction`: at the last address a word can be fetched from. -/
theorem test_witness_step_runs : ∃ s i, s.pc.toNat ≤ 0xFFE ∧
    decode [byteAt s s.pc.toNat, byteAt s (s.pc.toNat + 1)] = .ok (i, []) :=
  ⟨(setPc State.reset 0xFFE).withFetchWord 16 0xF165, .ldVxMem 1, by decide, rfl⟩

/-- `EncodeOfDecode`, `DecodeFollowsMatchAndMask`, `UnknownWordsAreExactlyTheSixClasses`: words on both sides. -/
theorem test_witness_words : decodeWord 0xF165 = some (.ldVxMem 1) ∧ (0xF165 &&& 0xF0FF : Word) = 0xF065 ∧
    unknownWord 0x5121 = true ∧ unknownWord 0x5120 = false := by decide

/-- `UnknownOpcodeIsReportedWithWordAndAddress`: a fetched unknown word. -/
theorem test_witness_unknown : fetchWord (State.reset.withFetchWord 16 0x5121) = .ok 0x5121 ∧ unknownWord 0x5121 = true :=
  ⟨rfl, by decide⟩

/-- `RetPopsAndAddsTwo`, `CallPushesItsOwnAddress`: the least and greatest depth. -/
theorem test_witness_stack_depths : State.reset.sp = 0 ∧ ({ State.reset with sp := 1 } : State).sp ≠ 0 ∧
    ({ State.reset with sp := 15 } : State).sp = 15 ∧ ({ State.reset with sp := 14 } : State).sp ≠ 15 := by decide

/-- `CallThenReturn`: a subroutine that changes nothing before it returns, at the deepest call there is. -/
theorem test_witness_call_then_return : ∃ s t, ∃ u : State, exec (.call 0x210) s = .next t ∧ u.sp = t.sp ∧ u.stack[u.sp] = s.pc :=
  ⟨{ State.reset with sp := 14 }, _, _, rfl, rfl, rfl⟩

/-- `SkipsOnRegisters`: a selector that is not 0. -/
theorem test_witness_selector : (15 : Nibble) ≠ 0 ∧ decodeWord (wordPXYN 0x5 1 2 15) = none := by decide

/-- `FlagsAreZeroOrOne`: an addition into VF that carries. -/
theorem test_witness_flags : ∃ s t, Instr.addVxVy 15 1 ∈
    [Instr.addVxVy 15 1, .subVxVy 15 1, .subnVxVy 15 1, .shrVxVy 15 1, .shlVxVy 15 1, .drwVxVyN 15 1 0] ∧
    exec (.addVxVy 15 1) s = .next t := ⟨start [(15, 0xF0), (1, 0x20)], _, by decide, rfl⟩

/-- `QuirksAreReadByTheirInstructionsOnly`: instructions that read one quirk do not read the other. -/
theorem test_witness_quirk_readers : ¬ ReadsLogicQuirk (.shrVxVy 1 2) ∧ ¬ ReadsShiftQuirk (.orVxVy 1 2) := by
  constructor <;> rintro ⟨x, y, h⟩ <;> simp at h

/-- `DrawTogglesExactlyTheSpritePixels`: no rows anywhere, one row at the last byte, fifteen rows that end there and, on the other
side, fifteen that end one byte later. -/
theorem test_witness_draw_range :
    ¬ ((0 : Nibble).toNat > 0 ∧ ({ State.reset with i := 0x1010 } : State).i.toNat + (0 : Nibble).toNat - 1 > 0xFFF) ∧
    ¬ ((1 : Nibble).toNat > 0 ∧ ({ State.reset with i := 0xFFF } : State).i.toNat + (1 : Nibble).toNat - 1 > 0xFFF) ∧
    ¬ ((15 : Nibble).toNat > 0 ∧ ({ State.reset with i := 0xFF1 } : State).i.toNat + (15 : Nibble).toNat - 1 > 0xFFF) ∧
    ((15 : Nibble).toNat > 0 ∧ ({ State.reset with i := 0xFF2 } : State).i.toNat + (15 : Nibble).toNat - 1 > 0xFFF) := by decide

/-- `DrawTogglesExactlyTheSpritePixels`: a pixel in the last column and row. -/
theorem test_witness_sprite_pixel :
    SpritePixel { start [(0, 63), (1, 31)] with i := 0x300, mem := [(0x300, 0x80)] } 0 1 1 63 31 :=
  ⟨0, 0, by decide⟩

/-- `DrawingTwiceRestores`: two draws of one row with the coordinates in V0 and V1, which a draw does not write. -/
theorem test_witness_draw_twice : ∃ s t u, exec (.drwVxVyN 0 1 1) s = .next t ∧ exec (.drwVxVyN 0 1 1) t = .next u ∧
    readV t 0 = readV s 0 ∧ readV t 1 = readV s 1 :=
  ⟨{ start [(0, 60)] with i := 0x300, mem := [(0x300, 0xFF)] }, _, _, rfl, rfl, by decide, by decide⟩

/-- `KeySkipsTestTheKeypadBit`: the greatest key and the number after it. -/
theorem test_witness_key_numbers : (readV (start [(0, 15)]) 0).toNat ≤ 15 ∧ (readV (start [(0, 16)]) 0).toNat > 15 := by decide

/-- `KeyWaitPass`: a pass with a key down, one with none at all, and one in which key 15 alone is released. -/
theorem test_witness_key_wait :
    (∀ k, k < 16 → ¬ (({ State.reset with keypad := 0x8001, keylatch := 1 } : State).keylatch.getLsbD k = true ∧
      ({ State.reset with keypad := 0x8001, keylatch := 1 } : State).keypad.getLsbD k = false)) ∧
    (∀ k, k < 16 → ¬ (State.reset.keylatch.getLsbD k = true ∧ State.reset.keypad.getLsbD k = false)) ∧
    ({ State.reset with keylatch := 0x8000 } : State).keylatch.getLsbD 15 = true ∧
    ({ State.reset with keylatch := 0x8000 } : State).keypad.getLsbD 15 = false ∧
    (∀ j, j < 15 → ¬ (({ State.reset with keylatch := 0x8000 } : State).keylatch.getLsbD j = true ∧
      ({ State.reset with keylatch := 0x8000 } : State).keypad.getLsbD j = false)) := by decide

/-- `KeyWaitCompletesOnReleaseNotOnPress`: no key down and none latched. -/
theorem test_witness_no_keys : State.reset.keypad = 0 ∧ State.reset.keylatch = 0 := by decide

/-- `BcdStoresThreeDigits`, `BlockStore`, `BlockLoad`, `AddressFaultTable`: the last `I` that fits and the first that does not. -/
theorem test_witness_data_edges :
    ({ State.reset with i := 0xFFD } : State).i.toNat + 2 ≤ 0xFFF ∧ ({ State.reset with i := 0xFFE } : State).i.toNat + 2 > 0xFFF ∧
    ({ State.reset with i := 0xFF0 } : State).i.toNat + (15 : Reg).val ≤ 0xFFF ∧
    ({ State.reset with i := 0xFF1 } : State).i.toNat + (15 : Reg).val > 0xFFF := by decide

/-- `AddressFaultTable`: the four instructions fault on the first range that does not fit, and `DRW` of no rows never does. -/
theorem test_witness_data_faults :
    exec (.drwVxVyN 0 1 2) { State.reset with i := 0xFFF } = .fault (.addressFault 0x1000) ∧
    exec (.ldBVx 0) { State.reset with i := 0xFFE } = .fault (.addressFault 0x1000) ∧
    exec (.ldMemVx 1) { State.reset with i := 0x1234 } = .fault (.addressFault 0x1234) ∧
    exec (.ldVxMem 15) { State.reset with i := 0xFF1 } = .fault (.addressFault 0x1000) ∧
    dataFault { State.reset with i := 0x1010 } 0 = none := ⟨rfl, rfl, rfl, rfl, by decide⟩

/-- `StoreThenLoadRestoresRegisters`: the registers overwritten in between. -/
theorem test_witness_store_then_load : ∃ s t u, exec (.ldMemVx 15) s = .next t ∧ u.i = s.i ∧
    (∀ a, byteAt u a = byteAt t a) ∧ readV u 3 ≠ readV s 3 :=
  ⟨{ start [(3, 7)] with i := 0xFF0 }, _, writeV { start [(3, 7)] with i := 0xFF0, mem := [(0xFF3, 7)] } 3 9, rfl, rfl,
    fun _ => rfl, by decide⟩

/-- `EveryInstructionCompletesOrRaisesItsOwnFault`: every fault of an instruction's own, and none. -/
theorem test_witness_own_faults : ownFault State.reset .ret = some (.stackUnderflow 0x200) ∧
    ownFault { State.reset with sp := 15 } (.call 0) = some (.stackOverflow 0x200) ∧
    ownFault (start [(0, 16)]) (.skpVx 0) = some (.keyIndexFault 16) ∧
    ownFault { State.reset with i := 0xFFF } (.drwVxVyN 0 0 2) = some (.addressFault 0x1000) ∧
    ownFault { State.reset with i := 0xFFF } (.drwVxVyN 0 0 1) = none ∧ ownFault State.reset .cls = none := by decide

/-- `AccessTableOfWrites`, `ProgramCounterPolicy`: an instruction that completes. -/
theorem test_witness_completes : ∃ s t, exec (.drwVxVyN 0 1 5) s = .next t := ⟨State.reset, _, rfl⟩

/-- `ExecuteLeavesTimersKeypadAndQuirks`: the instruction at `pc` is no timer write. -/
theorem test_witness_no_timer_write : (∀ x, fetchInstr (State.reset.withFetchWord 16 0x00E0) ≠ .ok (.ldDtVx x)) ∧
    (∀ x, fetchInstr (State.reset.withFetchWord 16 0x00E0) ≠ .ok (.ldStVx x)) := by
  constructor <;> intro x h <;> cases h

/-- `TimerMoves`: each of the three is fetched, and its `EXECUTE` answers ok; T4 among them, which clears a nonzero `ST`. -/
theorem test_witness_timer_moves : fetchInstr (State.reset.withFetchWord 16 0xF307) = .ok (.ldVxDt 3) ∧
    fetchInstr (State.reset.withFetchWord 16 0xF315) = .ok (.ldDtVx 3) ∧
    fetchInstr (State.reset.withFetchWord 16 0xF318) = .ok (.ldStVx 3) ∧
    (execute (({ State.reset with st := 9 } : State).withFetchWord 16 0xF318)).2 = .ok := ⟨rfl, rfl, rfl, by decide⟩

/-- `ExecuteHasThreeOutcomes`: a pass that latches a key waits, and one that sees it released does not. -/
theorem test_witness_waiting :
    (execute (({ State.reset with keypad := 0x8000, keylatch := 0x8000 } : State).withFetchWord 16 0xF10A)).2 = .waiting ∧
    (execute (({ State.reset with keylatch := 0x8000 } : State).withFetchWord 16 0xF10A)).2 = .ok := by decide

/-- `ExecuteHasThreeOutcomes`: each of them happens. -/
theorem test_witness_three_outcomes : (execute (State.reset.withFetchWord 16 0x00E0)).2 = .ok ∧
    (execute (State.reset.withFetchWord 16 0xF10A)).2 = .waiting ∧
    (execute (State.reset.withFetchWord 16 0x00EE)).2 = .fault (.stackUnderflow 0x200) := by decide

/-- `FaultsArePreciseAndRepeat`: an event of each kind that can fault. -/
theorem test_witness_faults : (send ⟨false, false⟩ .execute State.reset).2 = .fault (.unknownOpcode 0 0x200) ∧
    (send ⟨false, false⟩ (.load (List.replicate 3585 0)) State.reset).2 = .fault .capacityError :=
  ⟨by decide, by simp only [send, hostLoad, test_ill_formed_image]; rfl⟩

/-- `StepKeepsInv`, `EveryRunKeepsInv`: a state with memory listed, a stack entry and the greatest `pc` that steps. -/
theorem test_witness_inv : ∃ s t, RunInv s ∧ step s = .next t ∧ s.stack[(1 : Fin 16)] ≠ 0 :=
  ⟨({ State.reset with pc := 0xFFE, sp := 1, stack := State.reset.stack.set 1 0xFFE } : State).withFetchWord 16 0x2FFF, _,
    by decide, rfl, by decide⟩

/-- `StepKeepsLatchInUse`: a nonzero latch, in a wait that goes on. -/
theorem test_witness_latch : ∃ s t, LatchInUse s ∧ s.keylatch ≠ 0 ∧ step s = .next t ∧ t.keylatch ≠ 0 :=
  ⟨({ State.reset with keypad := 1, keylatch := 1 } : State).withFetchWord 16 0xF10A, _, fun _ => ⟨1, rfl⟩, by decide, rfl, by decide⟩

/-- `CanonicalMemoryIsUnique`: a canonical memory, and three lists of cells that are not. -/
theorem test_witness_canonical : Memory.wf [(5, 0), (0xFFF, 1)] = true ∧ Memory.wf [(0xFFF, 1), (5, 0)] = false ∧
    Memory.wf [(0x1000, 1)] = false ∧ Memory.wf [(0x300, 0)] = false := by decide

/-- `CanonicalMemoryIsUnique`: two memories reached by different writes that read the same. -/
theorem test_witness_canonical_equal : Memory.wf (Memory.write (Memory.write [] 0x300 1) 0x300 0) = true ∧
    ∀ a, Memory.read (Memory.write (Memory.write [] 0x300 1) 0x300 0) a = Memory.read [] a := ⟨by decide, fun _ => rfl⟩

/-- `TimerTickCountsDown`: the one event that answers `BEEP_STOP`, and the tick that does not. -/
theorem test_witness_beep : (send ⟨false, false⟩ .timerTick { State.reset with st := 1 }).2 = .beepStop ∧
    (send ⟨false, false⟩ .timerTick State.reset).2 = .ok := by decide

/-- `LoadCopiesOrRefuses`, `BootPlacesTheProgram`: the longest image that fits and the shortest that does not. -/
theorem test_witness_images : (List.replicate 3584 (0xAA : Byte)).length ≤ 3584 ∧ (List.replicate 3585 (0xAA : Byte)).length > 3584 := by
  rw [List.length_replicate, List.length_replicate]; decide

/-- `InitialiseWritesFontAndResets`: both sides of the end of the font. -/
theorem test_witness_font_edge : Memory.unlisted 0x4F = 0x80 ∧ Memory.unlisted 0x50 = 0 := by decide

/-- `FaultedDriverHoldsBack`: an `EXECUTE` that faults, and the driver after it. -/
theorem test_witness_driver : ∃ d', driverSend ⟨false, false⟩ .execute ⟨State.reset, false⟩ = some (d', .fault (.unknownOpcode 0 0x200)) ∧
    d'.faulted = true := ⟨⟨State.reset, true⟩, by decide⟩

/-- `FaultedDriverHoldsBack`: a faulted driver after an event it may send, and after a `RESET`. -/
theorem test_witness_faulted_driver :
    driverSend ⟨false, false⟩ (.keySet 4) ⟨State.reset, true⟩ = some (⟨{ State.reset with keypad := 0x0010 }, true⟩, .ok) ∧
    driverSend ⟨false, false⟩ .reset ⟨State.reset, true⟩ = some (⟨State.reset, false⟩, .ok) := by decide

/-- `QuiescentStateStays`: `JP 0x200` at 0x200 (F5). -/
theorem test_witness_quiescent : Quiescent (State.reset.withFetchWord 16 0x1200) := ⟨0x200, rfl, rfl⟩

end Sys2Proof.Tests
end

/-! ## What an instruction does, said once

An instruction either raises its own fault (R240) or completes; `exec_eq` says so for all 34, and everything about a step that
follows goes through it. -/

namespace Sys2Proof.Machine

/-- The state an instruction leaves where no check stops it: its meaning (R123) without the checks of R240. -/
def completed (s : State) : Instr → State
  | .cls => advance { s with video := clearVideo }
  | .ret => setPc (popStack s) (topOfStack s + 2)
  | .jp nnn => setPc s (zextAddr nnn)
  | .call nnn => setPc (pushStack s s.pc) (zextAddr nnn)
  | .seVxKk x kk => skipIf (readV s x == kk) s
  | .sneVxKk x kk => skipIf (readV s x != kk) s
  | .seVxVy x y => skipIf (readV s x == readV s y) s
  | .ldVxKk x kk => advance (writeV s x kk)
  | .addVxKk x kk => advance (writeV s x (readV s x + kk))
  | .ldVxVy x y => advance (writeV s x (readV s y))
  | .orVxVy x y => advance (writeLogic s x (readV s x ||| readV s y))
  | .andVxVy x y => advance (writeLogic s x (readV s x &&& readV s y))
  | .xorVxVy x y => advance (writeLogic s x (readV s x ^^^ readV s y))
  | .addVxVy x y => advance (writeWithFlag s x (readV s x + readV s y) (carryOf (readV s x) (readV s y)))
  | .subVxVy x y => advance (writeWithFlag s x (readV s x - readV s y) (notBorrow (readV s x) (readV s y)))
  | .shrVxVy x y => advance (writeWithFlag s x (shiftSource s x y >>> 1) (lsbOf (shiftSource s x y)))
  | .subnVxVy x y => advance (writeWithFlag s x (readV s y - readV s x) (notBorrow (readV s y) (readV s x)))
  | .shlVxVy x y => advance (writeWithFlag s x (shiftSource s x y <<< 1) (msbOf (shiftSource s x y)))
  | .sneVxVy x y => skipIf (readV s x != readV s y) s
  | .ldINnn nnn => advance { s with i := zextAddr nnn }
  | .jpV0Nnn nnn => setPc s (offsetTarget s nnn)
  | .rndVxKk x kk => advance (writeV (drawRandom s).2 x ((drawRandom s).1 &&& kk))
  | .drwVxVyN x y n => advance (setFlag { s with video := (drawSprite s x y n).1 } (drawSprite s x y n).2)
  | .skpVx x => skipIf (keyDown s (readV s x).toNat) s
  | .sknpVx x => skipIf (!keyDown s (readV s x).toNat) s
  | .ldVxDt x => advance (writeV s x s.dt)
  | .ldVxK x =>
    match lowestKey (releasedKeys s) with
    | none => { s with keylatch := latchedKeys s }
    | some k => advance (writeV { s with keylatch := 0 } x (BitVec.ofNat 8 k))
  | .ldDtVx x => advance { s with dt := readV s x }
  | .ldStVx x => advance { s with st := readV s x }
  | .addIVx x => advance { s with i := s.i + zextByte (readV s x) }
  | .ldFVx x => advance { s with i := glyphAddr (readV s x) }
  | .ldBVx x => advance (storeBytes s (indexAddr s 0) (bcdDigits (readV s x)))
  | .ldMemVx x => advance (storeBytes s (indexAddr s 0) (registersTo s x))
  | .ldVxMem x => advance (loadRegisters s (indexAddr s 0) x)

/-- The table's data fault (R244) is the range check of R64 for the bytes from `I`. -/
theorem dataFault_eq_none_iff (s : State) (count : Nat) :
    dataFault s count = none ↔ count = 0 ∨ indexAddr s 0 + count ≤ 0x1000 := rangeFault_eq_none (indexAddr s 0) count

/-- Running under a range check: the check's fault if there is one, else what is checked. -/
theorem withRange_eq_elim (base count : Nat) (t : State) :
    withRange base count (.next t) = (rangeFault base count).elim (.next t) .fault := by
  unfold withRange raise
  cases rangeFault base count <;> rfl

/-- R240, R245: an instruction answers its own fault of the table where that has one, and completes elsewhere. -/
theorem exec_eq (i : Instr) (s : State) : exec i s = (ownFault s i).elim (.next (completed s i)) .fault := by
  cases i with
  | ret => simp only [exec, execRet, ownFault, raise]; split <;> rfl
  | call nnn => simp only [exec, execCall, ownFault, raise]; split <;> rfl
  | skpVx x => simp only [exec, execSkpVx, withKey, ownFault, raise]; split <;> rfl
  | sknpVx x => simp only [exec, execSknpVx, withKey, ownFault, raise]; split <;> rfl
  | ldVxK x => simp only [exec, execLdVxK, ownFault, completed]; cases lowestKey (releasedKeys s) <;> rfl
  | drwVxVyN x y n => exact withRange_eq_elim ..
  | ldBVx x => exact withRange_eq_elim ..
  | ldMemVx x => exact withRange_eq_elim ..
  | ldVxMem x => exact withRange_eq_elim ..
  | _ => rfl

/-- When an instruction completes, and in which state. -/
theorem exec_eq_next_iff {i : Instr} {s t : State} : exec i s = .next t ↔ ownFault s i = none ∧ completed s i = t := by
  rw [exec_eq]
  cases ownFault s i <;> simp

/-- No instruction is refused. -/
theorem exec_ne_refused (i : Instr) (s : State) (r : Refusal) : exec i s ≠ .refused r := by
  rw [exec_eq]
  cases ownFault s i <;> simp

/-- No step is refused. -/
theorem step_ne_refused (s : State) (r : Refusal) : step s ≠ .refused r := by
  unfold step raise
  cases fetchInstr s with
  | ok i => exact exec_ne_refused i s r
  | error f => exact nofun

/-! ### What an instruction leaves of memory, stack and `pc` -/

/-- Memory stays where the access table (R36) has no write of it. -/
theorem completed_mem {s : State} {i : Instr} (hi : Part.mem ∉ writesOf i) : (completed s i).mem = s.mem := by
  cases i with
  | ldBVx x => simp [writesOf] at hi
  | ldMemVx x => simp [writesOf] at hi
  | ldVxK x => simp only [completed]; split <;> rfl
  | orVxVy x y => exact writeLogic_mem ..
  | andVxVy x y => exact writeLogic_mem ..
  | xorVxVy x y => exact writeLogic_mem ..
  | _ => rfl

/-- The stack entries stay where the access table (R36) has no write of them. -/
theorem completed_stack {s : State} {i : Instr} (hi : Part.stack ∉ writesOf i) : (completed s i).stack = s.stack := by
  cases i with
  | call nnn => simp [writesOf] at hi
  | ldVxK x => simp only [completed]; split <;> rfl
  | orVxVy x y => exact writeLogic_stack ..
  | andVxVy x y => exact writeLogic_stack ..
  | xorVxVy x y => exact writeLogic_stack ..
  | _ => rfl

/-- The target of `JP V0,nnn` as the number the policy of R124 names. -/
theorem offsetTarget_eq_ofNat (s : State) (nnn : Addr12) :
    offsetTarget s nnn = BitVec.ofNat 16 (nnn.toNat + (readV s 0).toNat) := by
  unfold offsetTarget zextAddr zextByte v0
  apply BitVec.eq_of_toNat_eq
  simp

/-- R124: the `pc` of a completed instruction is that of its class. -/
theorem completed_pc (s : State) (i : Instr) : (completed s i).pc = nextPc s i := by
  cases i with
  | jpV0Nnn nnn => exact offsetTarget_eq_ofNat s nnn
  | sneVxKk x kk => simp [completed, nextPc, skipPc]
  | sneVxVy x y => simp [completed, nextPc, skipPc]
  | orVxVy x y => simp [completed, nextPc]
  | andVxVy x y => simp [completed, nextPc]
  | xorVxVy x y => simp [completed, nextPc]
  | ldVxK x =>
    have h := lowestKey_eq_none (releasedKeys s)
    simp only [completed, nextPc]
    split
    · next hk => exact (if_pos (h.1 hk)).symm
    · next k hk => exact (if_neg fun h0 => by simp [h.2 h0] at hk).symm
  | _ => rfl

/-- Up to four bytes past the address of an instruction there is no wrap, and the bound of R24 holds. -/
theorem toNat_add_le {w d : Word} (hw : w.toNat ≤ 0xFFE) (hd : d.toNat ≤ 4) : (w + d).toNat ≤ 0x10FE := by
  rw [BitVec.toNat_add]
  omega

/-- R24: where `pc` and every stack entry can be the address of an instruction, the next `pc` is at most 0x10FE, the largest
target of `JP V0,nnn` (R191). -/
theorem toNat_nextPc_le {s : State} (hpc : s.pc.toNat ≤ 0xFFE) (hstack : ∀ k : Fin 16, s.stack[k].toNat ≤ 0xFFE)
    (i : Instr) : (nextPc s i).toNat ≤ 0x10FE := by
  have hseq : (s.pc + 2).toNat ≤ 0x10FE := toNat_add_le hpc (by decide)
  have hskip : ∀ c, (skipPc c s).toNat ≤ 0x10FE := fun c => by
    cases c
    · exact hseq
    · exact toNat_add_le hpc (by decide)
  have hjump : ∀ nnn : Addr12, (nnn.setWidth 16).toNat ≤ 0x10FE := fun nnn => by
    rw [BitVec.toNat_setWidth]; omega
  cases i with
  | ret => exact toNat_add_le (hstack s.sp) (by decide)
  | jp nnn => exact hjump nnn
  | call nnn => exact hjump nnn
  | jpV0Nnn nnn =>
    simp only [nextPc, BitVec.toNat_ofNat]
    omega
  | seVxKk x kk => exact hskip _
  | sneVxKk x kk => exact hskip _
  | seVxVy x y => exact hskip _
  | sneVxVy x y => exact hskip _
  | skpVx x => exact hskip _
  | sknpVx x => exact hskip _
  | ldVxK x =>
    simp only [nextPc]
    split
    · omega
    · exact hseq
  | _ => exact hseq

/-! ### The invariant of every run -/

/-- The bytes an instruction stores lie inside memory, which stays canonical (R64). -/
theorem wf_mem_completed {s : State} {i : Instr} (hwf : Memory.wf s.mem = true) (hok : ownFault s i = none) :
    Memory.wf (completed s i).mem = true := by
  by_cases hi : Part.mem ∈ writesOf i
  · cases i with
    | ldBVx x => exact wf_storeBytes hwf (.inr (((dataFault_eq_none_iff s 3).1 hok).resolve_left nofun))
    | ldMemVx x =>
      have hrange := ((dataFault_eq_none_iff s (x.val + 1)).1 hok).resolve_left nofun
      exact wf_storeBytes hwf (.inr (by rwa [length_registersTo]))
    | _ => simp [writesOf] at hi
  · rwa [completed_mem hi]

/-- A `CALL` that completes never pushes at entry 0 (R26, R143). -/
theorem sp_add_one_ne_zero {s : State} {nnn : Addr12} (hok : ownFault s (.call nnn) = none) : s.sp + 1 ≠ 0 := by
  have hne : s.sp ≠ 15 := by simpa [ownFault] using hok
  have hwrap : ∀ p : Fin 16, p ≠ 15 → p + 1 ≠ 0 := by decide
  exact hwrap s.sp hne

/-- Each stack entry after an instruction completes is what it was, or, at an index other than 0, the `pc` of a `CALL`. -/
theorem completed_stack_getElem {s : State} {i : Instr} (hok : ownFault s i = none) (k : Fin 16) :
    (completed s i).stack[k] = s.stack[k] ∨ k ≠ 0 ∧ (completed s i).stack[k] = s.pc := by
  by_cases hi : Part.stack ∈ writesOf i
  · cases i with
    | call nnn =>
      have hpush : (completed s (.call nnn)).stack[k] = if k = s.sp + 1 then s.pc else s.stack[k] :=
        stack_pushStack s s.pc k
      by_cases hk : k = s.sp + 1
      · exact .inr ⟨hk ▸ sp_add_one_ne_zero hok, hpush.trans (if_pos hk)⟩
      · exact .inl (hpush.trans (if_neg hk))
    | _ => simp [writesOf] at hi
  · exact .inl (by rw [completed_stack hi])

/-- A fetched instruction that completes keeps the invariant. -/
theorem runInv_completed {s : State} {i : Instr} (hs : RunInv s) (hpc : s.pc.toNat ≤ 0xFFE) (hok : ownFault s i = none) :
    RunInv (completed s i) := by
  obtain ⟨hwf, hbottom, hstack, -⟩ := hs
  refine ⟨wf_mem_completed hwf hok, ?_, fun k => ?_, completed_pc s i ▸ toNat_nextPc_le hpc hstack i⟩
  · obtain h | ⟨h0, -⟩ := completed_stack_getElem hok 0
    · exact h.trans hbottom
    · exact absurd rfl h0
  · obtain h | ⟨-, h⟩ := completed_stack_getElem hok k
    · exact h ▸ hstack k
    · exact h ▸ hpc

/-- Every step keeps the invariant. -/
theorem runInv_step {s t : State} (hs : RunInv s) (h : step s = .next t) : RunInv t := by
  obtain ⟨i, hi, hexec⟩ := (step_eq_next s t).1 h
  obtain ⟨hok, rfl⟩ := exec_eq_next_iff.1 hexec
  exact runInv_completed hs (pc_le_of_fetchInstr hi) hok

/-- A reset state meets the invariant when its memory is canonical (R40). -/
theorem runInv_resetWith {mem : Memory} (q : QuirkDefaults) (draws : Nat) (hwf : Memory.wf mem = true) :
    RunInv (State.resetWith q mem draws) := by
  have hzero : ∀ k : Fin 16, (State.resetWith q mem draws).stack[k] = 0 := fun k => Vector.getElem_replicate k.isLt
  have hpc : (State.resetWith q mem draws).pc.toNat ≤ 0x10FE := show (0x200 : Word).toNat ≤ 0x10FE by decide
  exact ⟨hwf, hzero 0, fun k => by rw [hzero k]; decide, hpc⟩

/-- A `LOAD` completes exactly when the image fits, and stores it (R283). -/
theorem hostLoad_eq_next_iff {bytes : List Byte} {s t : State} :
    hostLoad bytes s = .next t ↔ bytes.length ≤ Config.maxProgram ∧ storeBytes s Config.loadBase bytes = t := by
  unfold hostLoad wellFormedImage raise
  by_cases h : bytes.length ≤ Config.maxProgram <;> simp [h]

/-- A `LOAD` keeps the invariant: an image that fits ends inside memory. -/
theorem runInv_hostLoad {bytes : List Byte} {s t : State} (hs : RunInv s) (h : hostLoad bytes s = .next t) : RunInv t := by
  obtain ⟨hlen, rfl⟩ := hostLoad_eq_next_iff.1 h
  obtain ⟨hwf, hrest⟩ := hs
  refine ⟨wf_storeBytes hwf (.inr ?_), hrest⟩
  have hend : Config.loadBase + Config.maxProgram = 0x1000 := rfl
  omega

/-- An event whose outcome keeps a property keeps it, since a fault leaves the state (R246). -/
theorem replyOf_keeps {P : State → Prop} {s : State} {r : Result} (hs : P s) (h : ∀ t, r = .next t → P t) :
    P (replyOf s r).1 := by
  cases r with
  | next t => exact h t rfl
  | fault f => exact hs
  | refused r => exact hs

/-- The state after an `EXECUTE` is that of its step's outcome. -/
theorem execute_fst (s : State) : (execute s).1 = (replyOf s (step s)).1 := by
  unfold execute
  cases step s <;> rfl

/-- Every event of every agent keeps the invariant (R5). -/
theorem runInv_send (q : QuirkDefaults) (e : Event) (s : State) (hs : RunInv s) : RunInv (send q e s).1 := by
  cases e with
  | execute => exact execute_fst s ▸ replyOf_keeps hs fun _ => runInv_step hs
  | initialise => exact runInv_resetWith q s.draws Memory.wf_initial
  | reset =>
    obtain ⟨hwf, -⟩ := hs
    exact runInv_resetWith q s.draws hwf
  | load bytes => exact replyOf_keeps hs fun _ => runInv_hostLoad hs
  | timerTick => exact hs
  | keySet k => exact hs
  | keyClear k => exact hs
  | setQuirks a b => exact hs
  | videoRead => exact hs

/-- Settles O48: the invariant is kept by each event, so by every list of them. -/
theorem everyRunKeepsInv : Obligations.EveryRunKeepsInv := by
  intro q es s hs
  exact sendAll_keeps (runInv_send q) es s hs

/-! ### The outcomes of an `EXECUTE` -/

/-- No key is latched and up exactly when no bit of the released keys is set (R212). -/
theorem releasedKeys_eq_zero_iff (s : State) :
    releasedKeys s = 0 ↔ ∀ k, k < 16 → ¬ (s.keylatch.getLsbD k = true ∧ s.keypad.getLsbD k = false) := by
  have hbit : ∀ k, k < 16 → (releasedKeys s).getLsbD k = (s.keylatch.getLsbD k && !s.keypad.getLsbD k) := fun k hk => by
    unfold releasedKeys latchedKeys
    simp only [BitVec.getLsbD_and, BitVec.getLsbD_or, BitVec.getLsbD_not, hk, decide_true, Bool.true_and]
    cases s.keylatch.getLsbD k <;> cases s.keypad.getLsbD k <;> rfl
  constructor
  · intro h k hk ⟨hl, hp⟩
    have := hbit k hk
    simp [h, hl, hp] at this
  · intro h
    apply BitVec.eq_of_getLsbD_eq
    intro k hk
    rw [hbit k hk]
    simpa using h k hk

/-- A waiting pass is an `LD Vx,K` that sees no released key (R7, R212). -/
theorem waitingPass_iff (s : State) :
    waitingPass s = true ↔ (∃ x, fetchInstr s = .ok (.ldVxK x)) ∧ releasedKeys s = 0 := by
  unfold waitingPass
  split
  · next x h => simp [h, lowestKey_eq_none]
  · next h => simpa using fun x hx => (h x hx).elim

/-- A waiting pass only lets the latch grow (R212). -/
theorem execute_of_waitingPass {s : State} (h : waitingPass s = true) :
    execute s = ({ s with keylatch := latchedKeys s }, .waiting) := by
  obtain ⟨⟨x, hx⟩, hkeys⟩ := (waitingPass_iff s).1 h
  have hstep : step s = .next { s with keylatch := latchedKeys s } := by
    simp only [step, hx, exec, execLdVxK, (lowestKey_eq_none _).2 hkeys]
  simp only [execute, hstep, h, if_true]

/-- An `EXECUTE` that is no waiting pass ends in ok, or in a fault that leaves the state (R127). -/
theorem execute_of_not_waitingPass {s : State} (h : waitingPass s = false) :
    (execute s).2 = .ok ∨ ∃ f, (execute s).2 = .fault f ∧ (execute s).1 = s := by
  unfold execute
  cases hs : step s with
  | next t => exact .inl (by simp [h])
  | fault f => exact .inr ⟨f, rfl, rfl⟩
  | refused r => exact absurd hs (step_ne_refused s r)

/-- The reply is ok-waiting exactly in a waiting pass (R7). -/
theorem execute_snd_eq_waiting_iff (s : State) : (execute s).2 = .waiting ↔ waitingPass s = true := by
  cases h : waitingPass s with
  | true => simp [execute_of_waitingPass h]
  | false =>
    obtain hr | ⟨f, hr, -⟩ := execute_of_not_waitingPass h <;> simp [hr]

/-- Settles O44: by whether the `EXECUTE` is a waiting pass. -/
theorem executeHasThreeOutcomes : Obligations.ExecuteHasThreeOutcomes := by
  intro s
  refine ⟨?_, ?_⟩
  · cases h : waitingPass s with
    | true => exact .inr (.inl (by simp [execute_of_waitingPass h]))
    | false => exact (execute_of_not_waitingPass h).imp_right .inr
  · rw [execute_snd_eq_waiting_iff, waitingPass_iff, releasedKeys_eq_zero_iff]

end Sys2Proof.Machine

/-! ## The state (family 10)

The invariants of a step, the frame of the access table (R36), the canonical form of memory, and the two states the spec
gives (R40, R41). -/

namespace Sys2Proof.Machine

/-- Settles O46: a step is a fetched instruction that completes, and each of those keeps the invariant. -/
theorem stepKeepsInv : Obligations.StepKeepsInv := by
  intro s t hs h
  exact runInv_step hs h

/-! ### The access table of writes -/

/-- `s` with the named components taken from `t`. -/
def takeParts (parts : List Part) (s t : State) : State where
  v := if .v ∈ parts then t.v else s.v
  i := if .i ∈ parts then t.i else s.i
  pc := if .pc ∈ parts then t.pc else s.pc
  stack := if .stack ∈ parts then t.stack else s.stack
  sp := if .sp ∈ parts then t.sp else s.sp
  dt := if .dt ∈ parts then t.dt else s.dt
  st := if .st ∈ parts then t.st else s.st
  keypad := if .keypad ∈ parts then t.keypad else s.keypad
  keylatch := if .keylatch ∈ parts then t.keylatch else s.keylatch
  video := if .video ∈ parts then t.video else s.video
  qShiftX := if .quirks ∈ parts then t.qShiftX else s.qShiftX
  qLogicVF := if .quirks ∈ parts then t.qLogicVF else s.qLogicVF
  mem := if .mem ∈ parts then t.mem else s.mem
  draws := if .draws ∈ parts then t.draws else s.draws

/-- Taking some components from another state leaves every other component. -/
theorem sameBut_takeParts (parts : List Part) (s t : State) : SameBut parts s (takeParts parts s t) := by
  intro p hp
  cases p <;> simp [samePart, takeParts, readV_eq, byteAt_eq, hp]

/-- A completed instruction is `s` with no component replaced but those the access table (R36) marks as written. -/
theorem takeParts_completed (s : State) (i : Instr) : takeParts (writesOf i) s (completed s i) = completed s i := by
  cases i with
  | orVxVy x y => simp only [completed, writeLogic]; split <;> rfl
  | andVxVy x y => simp only [completed, writeLogic]; split <;> rfl
  | xorVxVy x y => simp only [completed, writeLogic]; split <;> rfl
  | ldVxK x => simp only [completed]; split <;> rfl
  | _ => rfl

/-- R36: a completed instruction changes only what its row marks as written. -/
theorem sameBut_completed (s : State) (i : Instr) : SameBut (writesOf i) s (completed s i) :=
  takeParts_completed s i ▸ sameBut_takeParts (writesOf i) s (completed s i)

/-- Settles O41: an instruction that completes leaves its completed state, whose frame is that of the table. -/
theorem accessTableOfWrites : Obligations.AccessTableOfWrites := by
  intro i s t h
  obtain ⟨-, rfl⟩ := exec_eq_next_iff.1 h
  exact sameBut_completed s i

/-! ### The key latch -/

/-- `KEYLATCH` is written by `LD Vx,K` alone (R33, R36). -/
theorem completed_keylatch {s : State} {i : Instr} (hi : ∀ x, i ≠ .ldVxK x) : (completed s i).keylatch = s.keylatch := by
  refine sameBut_completed s i .keylatch ?_
  cases i with
  | ldVxK x => exact absurd rfl (hi x)
  | _ => simp [writesOf]

/-- The fetch reads `pc` and memory only, so a change of the latch leaves the instruction at `pc` (R121). -/
theorem fetchInstr_with_keylatch (s : State) (latch : Word) : fetchInstr { s with keylatch := latch } = fetchInstr s := rfl

/-- After a pass of `LD Vx,K` either the wait goes on at the same instruction, or the latch is cleared (R212). -/
theorem latchInUse_completed_ldVxK {s : State} {x : Reg} (hfetch : fetchInstr s = .ok (.ldVxK x)) :
    LatchInUse (completed s (.ldVxK x)) := by
  simp only [completed]
  split
  · exact fun _ => ⟨x, (fetchInstr_with_keylatch s _).trans hfetch⟩
  · exact fun hlatch => absurd rfl hlatch

/-- A fetched instruction that completes keeps that a nonzero latch means a wait: outside a wait the latch is 0 and stays so. -/
theorem latchInUse_completed {s : State} {i : Instr} (hs : LatchInUse s) (hfetch : fetchInstr s = .ok i) :
    LatchInUse (completed s i) := by
  by_cases hi : ∃ x, i = .ldVxK x
  · obtain ⟨x, rfl⟩ := hi
    exact latchInUse_completed_ldVxK hfetch
  · intro hlatch
    rw [completed_keylatch fun x hx => hi ⟨x, hx⟩] at hlatch
    obtain ⟨x, hx⟩ := hs hlatch
    exact absurd ⟨x, Except.ok.inj (hfetch.symm.trans hx)⟩ hi

/-- Settles O49: by whether the instruction that completes is `LD Vx,K`. -/
theorem stepKeepsLatchInUse : Obligations.StepKeepsLatchInUse := by
  intro s t hs h
  obtain ⟨i, hfetch, hexec⟩ := (step_eq_next s t).1 h
  obtain ⟨-, rfl⟩ := exec_eq_next_iff.1 hexec
  exact latchInUse_completed hs hfetch

/-! ### The flag -/

/-- Where VF is written last as a flag (R179), it is left 0 or 1 (R22). -/
theorem readV_advance_setFlag_cases (s : State) (c : Bool) :
    readV (advance (setFlag s c)) 15 = 0 ∨ readV (advance (setFlag s c)) 15 = 1 := by
  rw [readV_advance, readV_setFlag, if_pos (show 15 = vf from rfl)]
  exact flagByte_cases c

/-- Settles O23: each of the six instructions ends by writing the flag. -/
theorem flagsAreZeroOrOne : Obligations.FlagsAreZeroOrOne := by
  intro x y n i s t hi h
  obtain ⟨-, rfl⟩ := exec_eq_next_iff.1 h
  simp only [List.mem_cons, List.not_mem_nil, or_false] at hi
  rcases hi with rfl | rfl | rfl | rfl | rfl | rfl <;> exact readV_advance_setFlag_cases _ _

/-! ### The canonical form of memory -/

/-- The canonical form, cell by cell. -/
theorem Memory.wfFrom_cons_iff {lo k : Nat} {v : Byte} {rest : Memory} :
    Memory.wfFrom lo ((k, v) :: rest) = true ↔
      lo ≤ k ∧ k < Config.memSize ∧ v ≠ Memory.unlisted k ∧ Memory.wfFrom (k + 1) rest = true := by
  simp [Memory.wfFrom, and_assoc]

/-- The first cell gives its own address its byte. -/
theorem Memory.read_cons_self (k : Nat) (v : Byte) (rest : Memory) : Memory.read ((k, v) :: rest) k = v := if_pos rfl

/-- The first cell leaves every other address to the rest. -/
theorem Memory.read_cons_of_ne {k a : Nat} (v : Byte) (rest : Memory) (h : k ≠ a) :
    Memory.read ((k, v) :: rest) a = Memory.read rest a := if_neg h

/-- Below its first address a canonical memory lists nothing. -/
theorem Memory.read_eq_unlisted_of_lt {m : Memory} {lo a : Nat} (h : Memory.wfFrom lo m = true) (ha : a < lo) :
    Memory.read m a = Memory.unlisted a := by
  induction m generalizing lo with
  | nil => rfl
  | cons c rest ih =>
    obtain ⟨k, v⟩ := c
    obtain ⟨hlo, -, -, hrest⟩ := Memory.wfFrom_cons_iff.1 h
    rw [Memory.read_cons_of_ne v rest (by omega), ih hrest (by omega)]

/-- A canonical memory that reads at `k` as one whose first cell is at `k` lists an address up to `k`. -/
theorem Memory.not_wfFrom_succ_of_read_eq {lo k : Nat} {v : Byte} {rest m : Memory}
    (h : Memory.wfFrom lo ((k, v) :: rest) = true) (hread : Memory.read ((k, v) :: rest) k = Memory.read m k) :
    ¬ Memory.wfFrom (k + 1) m = true := by
  intro hm
  obtain ⟨-, -, hv, -⟩ := Memory.wfFrom_cons_iff.1 h
  rw [Memory.read_cons_self, Memory.read_eq_unlisted_of_lt hm (Nat.lt_succ_self k)] at hread
  exact hv hread

/-- The first address of one canonical memory is not below that of another that reads the same. -/
theorem Memory.head_le_of_read_eq {lo lo' k k' : Nat} {v v' : Byte} {rest rest' : Memory}
    (h : Memory.wfFrom lo ((k, v) :: rest) = true) (h' : Memory.wfFrom lo' ((k', v') :: rest') = true)
    (hread : Memory.read ((k, v) :: rest) k = Memory.read ((k', v') :: rest') k) : k' ≤ k := by
  by_contra hlt
  obtain ⟨-, hcell⟩ := Memory.wfFrom_cons_iff.1 h'
  exact Memory.not_wfFrom_succ_of_read_eq h hread (Memory.wfFrom_cons_iff.2 ⟨by omega, hcell⟩)

/-- Two canonical memories that read the same start with the same cell, and so do their rests. -/
theorem Memory.eq_of_read_eq {m m' : Memory} {lo lo' : Nat} (h : Memory.wfFrom lo m = true)
    (h' : Memory.wfFrom lo' m' = true) (hread : ∀ a, Memory.read m a = Memory.read m' a) : m = m' := by
  induction m generalizing m' lo lo' with
  | nil =>
    cases m' with
    | nil => rfl
    | cons c' rest' => exact absurd rfl (Memory.not_wfFrom_succ_of_read_eq h' (hread c'.1).symm)
  | cons c rest ih =>
    cases m' with
    | nil => exact absurd rfl (Memory.not_wfFrom_succ_of_read_eq h (hread c.1))
    | cons c' rest' =>
      obtain ⟨k, v⟩ := c
      obtain ⟨k', v'⟩ := c'
      obtain rfl : k = k' :=
        Nat.le_antisymm (Memory.head_le_of_read_eq h' h (hread k').symm) (Memory.head_le_of_read_eq h h' (hread k))
      obtain rfl : v = v' := by simpa only [Memory.read_cons_self] using hread k
      obtain ⟨-, -, -, hrest⟩ := Memory.wfFrom_cons_iff.1 h
      obtain ⟨-, -, -, hrest'⟩ := Memory.wfFrom_cons_iff.1 h'
      have hreadRest : ∀ a, Memory.read rest a = Memory.read rest' a := fun a => by
        by_cases ha : k = a
        · rw [Memory.read_eq_unlisted_of_lt hrest (by omega), Memory.read_eq_unlisted_of_lt hrest' (by omega)]
        · simpa only [Memory.read_cons_of_ne _ _ ha] using hread a
      rw [ih hrest hrest' hreadRest]

/-- Settles O50: by induction on the first list, cell by cell. -/
theorem canonicalMemoryIsUnique : Obligations.CanonicalMemoryIsUnique := by
  intro m m' h h' hread
  exact Memory.eq_of_read_eq h h' hread

/-! ### The states after a reset and at power-on -/

section
variable (q : QuirkDefaults) (mem : Memory) (draws : Nat)

/-- Every register is 0 after a reset (R40). -/
theorem readV_resetWith (r : Reg) : readV (State.resetWith q mem draws) r = 0 := Vector.getElem_replicate r.isLt

/-- Every stack entry is 0 after a reset (R40). -/
theorem stack_resetWith (k : Fin 16) : (State.resetWith q mem draws).stack[k] = 0 := Vector.getElem_replicate k.isLt

/-- Every framebuffer cell is 0 after a reset (R40). -/
theorem cellOf_resetWith (k : Nat) : cellOf (State.resetWith q mem draws).video k = false := cellOf_clearVideo k

/-- A reset state reads the memory it is given (R282). -/
theorem byteAt_resetWith (a : Nat) : byteAt (State.resetWith q mem draws) a = Memory.read mem a := rfl

end

/-- The state at power-on is a reset one with zeroed memory and `pc` at 0 (R41). -/
theorem powerOn_eq : State.powerOn = setPc (State.resetWith ⟨false, false⟩ Memory.zeroed 0) 0 := by
  simp only [State.powerOn, setPc, State.resetWith]

/-- Settles O54: `RESET` answers the reset state over the old memory. -/
theorem resetClearsAllButMemory : Obligations.ResetClearsAllButMemory := by
  intro q s
  exact ⟨State.resetWith q s.mem s.draws, rfl, readV_resetWith q s.mem s.draws, stack_resetWith q s.mem s.draws,
    rfl, rfl, rfl, rfl, rfl, rfl, rfl, cellOf_resetWith q s.mem s.draws, rfl, rfl,
    byteAt_resetWith q s.mem s.draws⟩

/-- The invariant allows any `pc` up to the bound of R24. -/
theorem runInv_setPc {s : State} {w : Word} (hs : RunInv s) (hw : w.toNat ≤ 0x10FE) : RunInv (setPc s w) := by
  obtain ⟨hwf, hbottom, hstack, -⟩ := hs
  exact ⟨hwf, hbottom, hstack, hw⟩

/-- The state at power-on meets the invariant (R41). -/
theorem runInv_powerOn : RunInv State.powerOn :=
  powerOn_eq ▸ runInv_setPc (runInv_resetWith ⟨false, false⟩ 0 Memory.wf_zeroed) (by decide)

/-- Settles O47: both are reset states with canonical memory, but for the `pc` of power-on. -/
theorem resetAndPowerOnMeetInv : Obligations.ResetAndPowerOnMeetInv :=
  ⟨runInv_resetWith quirkDefaults 0 Memory.wf_initial, runInv_powerOn⟩

/-- Every byte is 0 at power-on (R41). -/
theorem byteAt_powerOn (a : Nat) : byteAt State.powerOn a = 0 := by
  rw [powerOn_eq, byteAt_setPc, byteAt_resetWith, Memory.read_zeroed]

/-- The word at `pc` is 0 at power-on (R41). -/
theorem fetchWord_powerOn : fetchWord State.powerOn = .ok 0 := by
  rw [fetchWord_eq_ok, byteAt_powerOn, byteAt_powerOn]
  exact ⟨Nat.zero_le _, rfl⟩

/-- The step at power-on ends at decode: 0x0000 is no instruction (R41, R98). -/
theorem step_powerOn : step State.powerOn = .fault (.unknownOpcode 0 0) := by
  have hdecode : decodeWord 0 = none := rfl
  simp only [step, fetchInstr, fetchWord_powerOn, hdecode, raise]
  rfl

/-- Settles O57: components from the reset state, memory from `Memory.read_zeroed`, the `EXECUTE` from its step. -/
theorem powerOnIsAllZero : Obligations.PowerOnIsAllZero := by
  refine ⟨readV_resetWith ⟨false, false⟩ Memory.zeroed 0, rfl, rfl, stack_resetWith ⟨false, false⟩ Memory.zeroed 0,
    rfl, rfl, rfl, rfl, rfl, cellOf_resetWith ⟨false, false⟩ Memory.zeroed 0, rfl, rfl, byteAt_powerOn, ?_⟩
  simp only [execute, step_powerOn]

end Sys2Proof.Machine

/-! ## Memory and encoding (family 20)

The decoder read against the encoder (R95, R97), and an instruction as it lies in memory (R66). -/

namespace Sys2Proof

/-- R97: the decoder answers, for the word of an instruction, that instruction: in the word of each format of R91 the fields of
R92 are the operands and the selector of R94 that were put there. -/
theorem decodeWord_encode (i : Instr) : decodeWord (encode i) = some i := by
  cases i with
  | cls | ret => rfl
  | jp nnn | call nnn | ldINnn nnn | jpV0Nnn nnn =>
    simp only [encode, decodeWord, fieldP_wordPNNN, fieldNNN_wordPNNN]
    rfl
  | seVxKk x kk | sneVxKk x kk | ldVxKk x kk | addVxKk x kk | rndVxKk x kk =>
    simp only [encode, decodeWord, fieldP_wordPXKK, fieldX_wordPXKK, fieldKK_wordPXKK]
    rfl
  | skpVx x | sknpVx x =>
    simp only [encode, decodeWord, decodeFamilyE, fieldP_wordPXKK, fieldX_wordPXKK, fieldKK_wordPXKK]
    rfl
  | ldVxDt x | ldVxK x | ldDtVx x | ldStVx x | addIVx x | ldFVx x | ldBVx x | ldMemVx x | ldVxMem x =>
    simp only [encode, decodeWord, decodeFamilyF, fieldP_wordPXKK, fieldX_wordPXKK, fieldKK_wordPXKK]
    rfl
  | seVxVy x y | sneVxVy x y =>
    simp only [encode, decodeWord, decodeN0, fieldP_wordPXYN, fieldX_wordPXYN, fieldY_wordPXYN, fieldN_wordPXYN]
    rfl
  | ldVxVy x y | orVxVy x y | andVxVy x y | xorVxVy x y | addVxVy x y | subVxVy x y | shrVxVy x y | subnVxVy x y
    | shlVxVy x y =>
    simp only [encode, decodeWord, decodeFamily8, fieldP_wordPXYN, fieldX_wordPXYN, fieldY_wordPXYN, fieldN_wordPXYN]
    rfl
  | drwVxVyN x y n =>
    simp only [encode, decodeWord, fieldP_wordPXYN, fieldX_wordPXYN, fieldY_wordPXYN, fieldN_wordPXYN]
    rfl

/-- Where a word decodes, so do its two bytes in memory order, and the bytes that follow are left (R66, R90). -/
theorem decode_bytesOfWord_append {w : Word} {i : Instr} (h : decodeWord w = some i) (rest : List Byte) :
    decode (bytesOfWord w ++ rest) = .ok (i, rest) := by
  simp only [bytesOfWord, List.cons_append, List.nil_append, decode, wordOfBytes_high_low, h]

/-- Settles O2: the word by its format, and the bytes by the word they make. -/
theorem decodeOfEncode : Obligations.DecodeOfEncode := by
  intro i
  exact ⟨decodeWord_encode i, decode_bytesOfWord_append (decodeWord_encode i)⟩

end Sys2Proof

/-! ## The word read back (family 30)

The encoder read against the decoder (R94, R97), the rows of R95 by match and mask, and the words of R98. -/

namespace Sys2Proof

section
variable {w : Word} {p n : Nibble} {kk : Byte} {nnn : Addr12}

/-- A word of format `PNNN` is made again from its fields (R91, R92). -/
theorem wordPNNN_of_fields (hP : (fieldP w).toNat = p.toNat) (hNNN : (fieldNNN w).toNat = nnn.toNat) :
    wordPNNN p nnn = w := by
  apply BitVec.eq_of_toNat_eq
  have := toNat_fields w
  have := toNat_wordPNNN p nnn
  omega

/-- A word of format `PXKK` is made again from its fields (R91, R92). -/
theorem wordPXKK_of_fields (hP : (fieldP w).toNat = p.toNat) (hKK : (fieldKK w).toNat = kk.toNat) :
    wordPXKK p (fieldX w) kk = w := by
  apply BitVec.eq_of_toNat_eq
  have := toNat_fields w
  have := toNat_wordPXKK p (fieldX w) kk
  omega

/-- A word of format `PXYN` is made again from its fields (R91, R92). -/
theorem wordPXYN_of_fields (hP : (fieldP w).toNat = p.toNat) (hN : (fieldN w).toNat = n.toNat) :
    wordPXYN p (fieldX w) (fieldY w) n = w := by
  apply BitVec.eq_of_toNat_eq
  have := toNat_fields w
  have := toNat_wordPXYN p (fieldX w) (fieldY w) n
  omega

end

/-- R94, R97: an instruction the decoder answers is encoded as the word it was read from. The cases are the families `P`; in
each, the operands are the word's fields and the selector was compared bit by bit. -/
theorem encode_of_decodeWord {w : Word} {i : Instr} (h : decodeWord w = some i) : encode i = w := by
  match hP : (fieldP w).toNat with
  | 0x0 =>
    simp only [decodeWord, hP, decodeFamily0] at h
    split at h <;> cases h
    all_goals exact wordPNNN_of_fields hP ‹_›
  | 0x1 | 0x2 | 0xA | 0xB =>
    simp only [decodeWord, hP] at h
    cases h
    exact wordPNNN_of_fields hP rfl
  | 0x3 | 0x4 | 0x6 | 0x7 | 0xC =>
    simp only [decodeWord, hP] at h
    cases h
    exact wordPXKK_of_fields hP rfl
  | 0x5 | 0x9 =>
    simp only [decodeWord, hP, decodeN0] at h
    split at h <;> cases h
    exact wordPXYN_of_fields hP ‹_›
  | 0x8 =>
    simp only [decodeWord, hP, decodeFamily8] at h
    split at h <;> cases h
    all_goals exact wordPXYN_of_fields hP ‹_›
  | 0xD =>
    simp only [decodeWord, hP] at h
    cases h
    exact wordPXYN_of_fields hP rfl
  | 0xE =>
    simp only [decodeWord, hP, decodeFamilyE] at h
    split at h <;> cases h
    all_goals exact wordPXKK_of_fields hP ‹_›
  | 0xF =>
    simp only [decodeWord, hP, decodeFamilyF] at h
    split at h <;> cases h
    all_goals exact wordPXKK_of_fields hP ‹_›
  | _ + 16 => omega

/-- Settles O3: family by family, each word is made again from its fields. -/
theorem encodeOfDecode : Obligations.EncodeOfDecode := by
  intro w i h
  exact encode_of_decodeWord h

/-- R95: the word of every instruction satisfies the match and mask of its row. -/
theorem encode_rowMatch (i : Instr) : encode i &&& (opcodeRow i).mask = (opcodeRow i).pat := by
  cases i with
  | cls | ret => rfl
  | jp | call | ldINnn | jpV0Nnn => exact Laws.RowMatch.mask_PNNN _ _
  | seVxKk | sneVxKk | ldVxKk | addVxKk | rndVxKk => exact Laws.RowMatch.mask_PXKK _ _ _
  | seVxVy | sneVxVy | ldVxVy | orVxVy | andVxVy | xorVxVy | addVxVy | subVxVy | shrVxVy | subnVxVy | shlVxVy =>
    exact Laws.RowMatch.mask_PXYN_selector _ _ _ _
  | drwVxVyN => exact Laws.RowMatch.mask_PXYN _ _ _ _
  | skpVx | sknpVx | ldVxDt | ldVxK | ldDtVx | ldStVx | addIVx | ldFVx | ldBVx | ldMemVx | ldVxMem =>
    exact Laws.RowMatch.mask_PXKK_selector _ _ _

/-- A field that lies wholly under the mask is fixed by the match (R95). -/
theorem extract_eq_of_match {w m pat : Word} {lo len : Nat} (h : w &&& m = pat)
    (hm : m.extractLsb' lo len = BitVec.allOnes len) : w.extractLsb' lo len = pat.extractLsb' lo len := by
  rw [← h, BitVec.extractLsb'_and, hm, BitVec.and_allOnes]

/-- R97: a word that satisfies a row's match and mask decodes to an instruction of that row. The mask of a row covers the
family `P` and, where R94 gives the family a selector, the selector. -/
theorem decodeWord_of_match {w : Word} {i : Instr} (h : w &&& (opcodeRow i).mask = (opcodeRow i).pat) :
    ∃ j, decodeWord w = some j ∧ opcodeRow j = opcodeRow i := by
  cases i with
  | cls | ret =>
    simp only [opcodeRow] at h
    have hP : fieldP w = _ := extract_eq_of_match h rfl
    have hNNN : fieldNNN w = _ := extract_eq_of_match h rfl
    simp only [decodeWord, decodeFamily0, hP, hNNN]
    exact ⟨_, rfl, rfl⟩
  | jp | call | ldINnn | jpV0Nnn | seVxKk | sneVxKk | ldVxKk | addVxKk | rndVxKk | drwVxVyN =>
    simp only [opcodeRow] at h
    have hP : fieldP w = _ := extract_eq_of_match h rfl
    simp only [decodeWord, hP]
    exact ⟨_, rfl, rfl⟩
  | seVxVy | sneVxVy | ldVxVy | orVxVy | andVxVy | xorVxVy | addVxVy | subVxVy | shrVxVy | subnVxVy | shlVxVy =>
    simp only [opcodeRow] at h
    have hP : fieldP w = _ := extract_eq_of_match h rfl
    have hN : fieldN w = _ := extract_eq_of_match h rfl
    simp only [decodeWord, decodeN0, decodeFamily8, hP, hN]
    exact ⟨_, rfl, rfl⟩
  | skpVx | sknpVx | ldVxDt | ldVxK | ldDtVx | ldStVx | addIVx | ldFVx | ldBVx | ldMemVx | ldVxMem =>
    simp only [opcodeRow] at h
    have hP : fieldP w = _ := extract_eq_of_match h rfl
    have hKK : fieldKK w = _ := extract_eq_of_match h rfl
    simp only [decodeWord, decodeFamilyE, decodeFamilyF, hP, hKK]
    exact ⟨_, rfl, rfl⟩

/-- Settles O4: the match fixes what the decoder reads, and a word that decodes is its instruction's, which matches. -/
theorem decodeFollowsMatchAndMask : Obligations.DecodeFollowsMatchAndMask := by
  intro w i
  refine ⟨decodeWord_of_match, ?_⟩
  rintro ⟨j, hj, hrow⟩
  rw [← hrow, ← encode_of_decodeWord hj]
  exact encode_rowMatch j

section
variable {w : Word}

/-- Family 0 decodes nothing but `CLS` and `RET` (R94). -/
theorem decodeFamily0_eq_none_iff :
    decodeFamily0 w = none ↔ (fieldNNN w).toNat ≠ 0x0E0 ∧ (fieldNNN w).toNat ≠ 0x0EE := by
  unfold decodeFamily0
  split <;> simp_all

/-- Families 5 and 9 decode nothing where `N` is not 0 (R94). -/
theorem decodeN0_eq_none_iff {i : Instr} : decodeN0 w i = none ↔ (fieldN w).toNat ≠ 0 := by
  unfold decodeN0
  split <;> simp_all

/-- Family 8 decodes nothing at the seven selectors R98 lists. -/
theorem decodeFamily8_eq_none_iff :
    decodeFamily8 w = none ↔ (fieldN w).toNat ∈ [8, 9, 0xA, 0xB, 0xC, 0xD, 0xF] := by
  have hlt := (fieldN w).isLt
  unfold decodeFamily8
  split <;> simp_all
  omega

/-- Family E decodes nothing outside its two selectors (R94). -/
theorem decodeFamilyE_eq_none_iff : decodeFamilyE w = none ↔ (fieldKK w).toNat ∉ [0x9E, 0xA1] := by
  unfold decodeFamilyE
  split <;> simp_all

/-- Family F decodes nothing outside its nine selectors (R94). -/
theorem decodeFamilyF_eq_none_iff :
    decodeFamilyF w = none ↔ (fieldKK w).toNat ∉ [0x07, 0x0A, 0x15, 0x18, 0x1E, 0x29, 0x33, 0x55, 0x65] := by
  unfold decodeFamilyF
  split <;> simp_all

end

/-- R98: the six classes of unknown words, in the fields of R92. -/
theorem unknownWord_iff (w : Word) : unknownWord w = true ↔
    (fieldP w).toNat = 0 ∧ (fieldNNN w).toNat ≠ 0x0E0 ∧ (fieldNNN w).toNat ≠ 0x0EE ∨
    ((fieldP w).toNat = 5 ∨ (fieldP w).toNat = 9) ∧ (fieldN w).toNat ≠ 0 ∨
    (fieldP w).toNat = 8 ∧ (fieldN w).toNat ∈ [8, 9, 0xA, 0xB, 0xC, 0xD, 0xF] ∨
    (fieldP w).toNat = 14 ∧ (fieldKK w).toNat ∉ [0x9E, 0xA1] ∨
    (fieldP w).toNat = 15 ∧ (fieldKK w).toNat ∉ [0x07, 0x0A, 0x15, 0x18, 0x1E, 0x29, 0x33, 0x55, 0x65] := by
  obtain ⟨hP, -, -, hN, hKK, hNNN⟩ := toNat_fields w
  rw [hP, hN, hKK, hNNN]
  simp [unknownWord, unknownFamily0, unknownFamily59, unknownFamily8, unknownFamilyE, unknownFamilyF, or_assoc, and_assoc]

/-- Settles O5: family by family, what the decoder leaves out is R98's class of that family. -/
theorem unknownWordsAreExactlyTheSixClasses : Obligations.UnknownWordsAreExactlyTheSixClasses := by
  intro w
  rw [unknownWord_iff]
  match hP : (fieldP w).toNat with
  | 0x0 => simp [decodeWord, hP, decodeFamily0_eq_none_iff]
  | 0x5 | 0x9 => simp [decodeWord, hP, decodeN0_eq_none_iff]
  | 0x8 => simp [decodeWord, hP, decodeFamily8_eq_none_iff]
  | 0xE => simp [decodeWord, hP, decodeFamilyE_eq_none_iff]
  | 0xF => simp [decodeWord, hP, decodeFamilyF_eq_none_iff]
  | 0x1 | 0x2 | 0x3 | 0x4 | 0x6 | 0x7 | 0xA | 0xB | 0xC | 0xD => simp [decodeWord, hP]
  | _ + 16 => omega

/-- Settles O1: seven words of instructions, and two of R98's classes. -/
theorem sampleWordsDecode : Obligations.SampleWordsDecode :=
  ⟨decodeWord_encode .cls, decodeWord_encode (.jp 0xABC), decodeWord_encode (.seVxKk 3 0x2A),
    decodeWord_encode (.addVxVy 15 1), decodeWord_encode (.drwVxVyN 1 2 3), decodeWord_encode (.skpVx 0),
    decodeWord_encode (.ldMemVx 2), (unknownWordsAreExactlyTheSixClasses 0x0000).2 rfl,
    (unknownWordsAreExactlyTheSixClasses 0x5121).2 rfl⟩

end Sys2Proof

/-! ## The execute cycle (family 40)

The fetch (R121), the step as the rule of the fetched instruction (R120, R123), `pc` after it (R124), and the components no
`EXECUTE` reaches (R126). -/

namespace Sys2Proof.Machine

/-- Settles O42: an instruction that completes leaves its completed state, whose `pc` is that of its class. -/
theorem programCounterPolicy : Obligations.ProgramCounterPolicy := by
  intro i s t h
  obtain ⟨-, rfl⟩ := exec_eq_next_iff.1 h
  exact completed_pc s i

/-! ### The fetch -/

/-- A word has its first byte high (R66). -/
theorem toNat_wordOfBytes (hi lo : Byte) : (wordOfBytes hi lo).toNat = hi.toNat * 256 + lo.toNat :=
  toNat_append_add hi lo

/-- Above 0xFFE the fetch faults with the lowest address it cannot read (R64, R121). -/
theorem fetchWord_of_pc_gt {s : State} (h : 0xFFE < s.pc.toNat) :
    fetchWord s = .error (.addressFault (max s.pc.toNat 0x1000)) := by
  unfold fetchWord
  rw [(rangeFault_eq_some s.pc.toNat 2 _).2 ⟨by omega, rfl⟩]

/-- A fault of the fetch is the outcome of the step (R120). -/
theorem step_of_fetchWord_error {s : State} {f : Fault} (h : fetchWord s = .error f) : step s = .fault f := by
  simp only [step, fetchInstr, h, raise]

/-- Settles O6: up to 0xFFE the word at `pc`, above it the range fault of its two bytes. -/
theorem fetchIsBigEndianAndFaultsAboveMemory : Obligations.FetchIsBigEndianAndFaultsAboveMemory := by
  intro s
  refine ⟨fun hpc => ?_, fun hpc => ?_, fun hpc => ?_⟩
  · exact ⟨_, (fetchWord_eq_ok s _).2 ⟨hpc, rfl⟩, toNat_wordOfBytes ..⟩
  · have hfault := step_of_fetchWord_error (fetchWord_of_pc_gt (s := s) (by omega))
    rwa [max_eq_left hpc] at hfault
  · have hfault := step_of_fetchWord_error (fetchWord_of_pc_gt (s := s) (by omega))
    rwa [max_eq_right (by omega)] at hfault

/-! ### The fetched instruction -/

/-- A step is the rule of the fetched instruction, with nothing around it (R123). -/
theorem step_of_fetchInstr {s : State} {i : Instr} (h : fetchInstr s = .ok i) : step s = exec i s := by
  simp only [step, h]

/-- Bytes that decode start with a word that does (R122). -/
theorem decodeWord_of_decode {hi lo : Byte} {rest rest' : List Byte} {i : Instr}
    (h : decode (hi :: lo :: rest) = .ok (i, rest')) : decodeWord (wordOfBytes hi lo) = some i := by
  cases hw : decodeWord (wordOfBytes hi lo) with
  | none => simp [decode, hw] at h
  | some j =>
    obtain ⟨rfl, -⟩ : j = i ∧ rest = rest' := by simpa [decode, hw] using h
    rfl

/-- Settles O7: the two bytes at `pc` are the fetched word, and what they decode to is the fetched instruction. -/
theorem stepRunsTheDecodedInstruction : Obligations.StepRunsTheDecodedInstruction := by
  intro s i hpc hdecode
  have hfetch := (fetchWord_eq_ok s _).2 ⟨hpc, rfl⟩
  exact step_of_fetchInstr ((fetchInstr_eq_ok s i).2 ⟨_, hfetch, decodeWord_of_decode hdecode⟩)

/-! ### What an `EXECUTE` leaves unchanged -/

/-- A component is the same in a state and itself. -/
theorem samePart_refl (s : State) (p : Part) : samePart s s p := by
  cases p <;> simp [samePart]

/-- An `EXECUTE` leaves every component that the instruction at `pc`, where there is one, does not write (R36, R127). -/
theorem samePart_execute {s : State} {p : Part} (h : ∀ i, fetchInstr s = .ok i → p ∉ writesOf i) :
    samePart s (execute s).1 p := by
  rw [execute_fst]
  refine replyOf_keeps (P := fun t => samePart s t p) (samePart_refl s p) fun t hstep => ?_
  obtain ⟨i, hfetch, hexec⟩ := (step_eq_next s t).1 hstep
  exact accessTableOfWrites i s t hexec p (h i hfetch)

/-- `DT` is written by `LD DT,Vx` alone (R36). -/
theorem dt_mem_writesOf {i : Instr} (h : .dt ∈ writesOf i) : ∃ x, i = .ldDtVx x := by
  cases i with
  | ldDtVx x => exact ⟨x, rfl⟩
  | _ => simp [writesOf] at h

/-- `ST` is written by `LD ST,Vx` alone (R36). -/
theorem st_mem_writesOf {i : Instr} (h : .st ∈ writesOf i) : ∃ x, i = .ldStVx x := by
  cases i with
  | ldStVx x => exact ⟨x, rfl⟩
  | _ => simp [writesOf] at h

/-- No instruction writes `KEYPAD` (R36). -/
theorem keypad_notMem_writesOf (i : Instr) : .keypad ∉ writesOf i := by
  cases i <;> simp [writesOf]

/-- No instruction writes the quirk flags (R36). -/
theorem quirks_notMem_writesOf (i : Instr) : .quirks ∉ writesOf i := by
  cases i <;> simp [writesOf]

/-- None of the three outcomes of an `EXECUTE` is `BEEP_STOP` (R7, R126). -/
theorem execute_snd_ne_beepStop (s : State) : (execute s).2 ≠ .beepStop := by
  obtain ⟨hok | ⟨hwait, -⟩ | ⟨f, hfault, -⟩, -⟩ := executeHasThreeOutcomes s
  · simp [hok]
  · simp [hwait]
  · simp [hfault]

/-- Settles O43: each component from the access table of writes, the reply from the three outcomes. -/
theorem executeLeavesTimersKeypadAndQuirks : Obligations.ExecuteLeavesTimersKeypadAndQuirks := by
  intro s
  have hkeypad := samePart_execute (s := s) fun i _ => keypad_notMem_writesOf i
  obtain ⟨hshift, hlogic⟩ := samePart_execute (s := s) fun i _ => quirks_notMem_writesOf i
  refine ⟨hkeypad, hshift, hlogic, fun hdt => ?_, fun hst => ?_, execute_snd_ne_beepStop s⟩
  · refine samePart_execute (p := .dt) fun i hfetch hmem => ?_
    obtain ⟨x, rfl⟩ := dt_mem_writesOf hmem
    exact hdt x hfetch
  · refine samePart_execute (p := .st) fun i hfetch hmem => ?_
    obtain ⟨x, rfl⟩ := st_mem_writesOf hmem
    exact hst x hfetch

end Sys2Proof.Machine

/-! ## Clear, return, jump, call (family 41)

The four instructions of families 0, 1 and 2 (R140 to R143), what a `RET` finds after a `CALL` (R144), and the `JP` to itself
(R296). -/

namespace Sys2Proof.Machine

/-- An instruction with no fault of its own completes (R245). -/
theorem exec_of_ownFault_eq_none {i : Instr} {s : State} (h : ownFault s i = none) : exec i s = .next (completed s i) :=
  exec_eq_next_iff.2 ⟨h, rfl⟩

/-- An instruction with a fault of its own ends in it (R240). -/
theorem exec_of_ownFault_eq_some {i : Instr} {s : State} {f : Fault} (h : ownFault s i = some f) : exec i s = .fault f := by
  rw [exec_eq, h, Option.elim_some]

/-- A frame with more components named says less. -/
theorem sameBut_of_subset {parts parts' : List Part} {s t : State} (h : SameBut parts s t) (hsub : parts ⊆ parts') :
    SameBut parts' s t :=
  fun p hp => h p fun hmem => hp (hsub hmem)

/-- Zero-extension keeps the number of a 12-bit immediate (R93). -/
theorem toNat_zextAddr (nnn : Addr12) : (zextAddr nnn).toNat = nnn.toNat := by
  unfold zextAddr
  rw [BitVec.toNat_setWidth]
  omega

/-- Settles O9: `CLS` has no fault, and leaves the cleared framebuffer. -/
theorem clsClearsTheScreen : Obligations.ClsClearsTheScreen := by
  refine ⟨decodeWord_encode .cls, fun s => ?_⟩
  have hframe := sameBut_of_subset (sameBut_completed s .cls) (show writesOf .cls ⊆ [.video, .pc] by decide)
  exact ⟨_, exec_of_ownFault_eq_none rfl, cellOf_clearVideo, rfl, hframe⟩

/-- Settles O10: by whether the stack is empty. -/
theorem retPopsAndAddsTwo : Obligations.RetPopsAndAddsTwo := by
  refine ⟨decodeWord_encode .ret, fun s => ⟨fun hempty => ?_, fun hne => ?_⟩⟩
  · exact exec_of_ownFault_eq_some (if_pos hempty)
  · exact ⟨_, exec_of_ownFault_eq_none (if_neg hne), rfl, Fin.val_sub_one_of_ne_zero hne, sameBut_completed s .ret⟩

/-- Settles O11: `JP` has no fault, and leaves the zero-extended target in `pc`. -/
theorem jpSetsPc : Obligations.JpSetsPc := by
  intro nnn
  refine ⟨decodeWord_encode (.jp nnn), fun s => ?_⟩
  exact ⟨_, exec_of_ownFault_eq_none rfl, toNat_zextAddr nnn, sameBut_completed s (.jp nnn)⟩

/-- Below 15 the pre-increment of `sp` does not wrap (R27). -/
theorem val_sp_add_one {s : State} (h : s.sp ≠ 15) : (s.sp + 1).val = s.sp.val + 1 :=
  (Fin.val_add_one s.sp).trans (if_neg h)

/-- Settles O12: by whether the stack is full. -/
theorem callPushesItsOwnAddress : Obligations.CallPushesItsOwnAddress := by
  intro nnn
  refine ⟨decodeWord_encode (.call nnn), fun s => ⟨fun hfull => ?_, fun hne => ?_⟩⟩
  · exact exec_of_ownFault_eq_some (if_pos hfull)
  · refine ⟨_, exec_of_ownFault_eq_none (if_neg hne), toNat_zextAddr nnn, val_sp_add_one hne, fun k => ?_,
      sameBut_completed s (.call nnn)⟩
    have hpush : (completed s (.call nnn)).stack[k] = if k = s.sp + 1 then s.pc else s.stack[k] :=
      stack_pushStack s s.pc k
    simpa only [Fin.ext_iff, val_sp_add_one hne] using hpush

/-- Settles O13: the `CALL` left `sp` above 0, so the `RET` completes, and its pop undoes the increment. -/
theorem callThenReturn : Obligations.CallThenReturn := by
  intro nnn s t u hcall hsp hentry
  obtain ⟨hok, rfl⟩ := exec_eq_next_iff.1 hcall
  replace hsp : u.sp = s.sp + 1 := hsp
  have hne : u.sp ≠ 0 := hsp ▸ sp_add_one_ne_zero hok
  refine ⟨sameBut_completed s (.call nnn), _, exec_of_ownFault_eq_none (if_neg hne), ?_, ?_, sameBut_completed u .ret⟩
  · exact congrArg (· + 2) hentry
  · change u.sp - 1 = s.sp
    rw [hsp, add_sub_cancel_right]

/-- A `JP` to its own address leaves the state, and is no waiting pass (R142, R296). -/
theorem execute_of_quiescent {s : State} (h : Quiescent s) : execute s = (s, .ok) := by
  obtain ⟨nnn, hfetch, htarget⟩ := h
  have hstep : step s = .next s := by
    rw [step_of_fetchInstr hfetch, exec_of_ownFault_eq_none rfl, completed, htarget]
    rfl
  have hwait : waitingPass s = false := by simp only [waitingPass, hfetch]
  simp [execute, hstep, hwait]

/-- Settles O60: by induction on the number of events, each of which leaves the state it is sent to. -/
theorem quiescentStateStays : Obligations.QuiescentStateStays := by
  intro q s n hs
  induction n with
  | zero => rfl
  | succ n ih => simp only [List.replicate_succ, sendAll, send, execute_of_quiescent hs, ih]

end Sys2Proof.Machine

/-! ## Skips (family 42)

The conditional skips of families 3, 4, 5 and 9 (R150 to R153): each writes `pc` alone, by the skip class of R124. -/

namespace Sys2Proof.Machine

/-- An instruction that has no fault of its own and writes `pc` alone completes, and moves `pc` by its class of R124. -/
theorem exec_of_writesOf_eq_pc {i : Instr} {s : State} (hfault : ownFault s i = none) (hw : writesOf i = [.pc]) :
    ∃ t, exec i s = .next t ∧ t.pc = nextPc s i ∧ SameBut [.pc] s t :=
  ⟨_, exec_of_ownFault_eq_none hfault, completed_pc s i, hw ▸ sameBut_completed s i⟩

section
variable (a b : Byte) (s : State)

/-- Skip if equal, by the numbers of the two bytes (R150, R152). -/
theorem skipPc_decide_eq : skipPc (decide (a = b)) s = if a.toNat = b.toNat then s.pc + 4 else s.pc + 2 := by
  simp only [skipPc, decide_eq_true_eq, BitVec.toNat_inj]

/-- Skip if not equal, by the numbers of the two bytes (R151, R153). -/
theorem skipPc_decide_ne : skipPc (decide (a ≠ b)) s = if a.toNat = b.toNat then s.pc + 2 else s.pc + 4 := by
  simp only [skipPc, decide_eq_true_eq, BitVec.toNat_inj, ite_not]

end

/-- Settles O14: neither skip has a fault, and each moves `pc` by its condition. -/
theorem skipsOnAnImmediate : Obligations.SkipsOnAnImmediate := by
  intro x kk
  refine ⟨decodeWord_encode (.seVxKk x kk), decodeWord_encode (.sneVxKk x kk), fun s => ⟨?_, ?_⟩⟩
  · rw [← skipPc_decide_eq]
    exact exec_of_writesOf_eq_pc rfl rfl
  · rw [← skipPc_decide_ne]
    exact exec_of_writesOf_eq_pc rfl rfl

/-- The words of families 5 and 9 with a nonzero low nibble are unknown (R94, R98). -/
theorem decodeWord_wordPXYN_eq_none {p n : Nibble} (hp : p = 0x5 ∨ p = 0x9) (hn : n ≠ 0) (x y : Reg) :
    decodeWord (wordPXYN p x y n) = none := by
  have hP : (fieldP (wordPXYN p x y n)).toNat = 5 ∨ (fieldP (wordPXYN p x y n)).toNat = 9 := by
    rw [fieldP_wordPXYN]
    exact hp.imp (congrArg BitVec.toNat) (congrArg BitVec.toNat)
  have hN : (fieldN (wordPXYN p x y n)).toNat ≠ 0 := by
    rw [fieldN_wordPXYN]
    exact fun h => hn (BitVec.eq_of_toNat_eq h)
  exact (unknownWordsAreExactlyTheSixClasses _).2 ((unknownWord_iff _).2 (.inr (.inl ⟨hP, hN⟩)))

/-- Settles O15: neither skip has a fault, each moves `pc` by its condition, and the other selectors are unknown words. -/
theorem skipsOnRegisters : Obligations.SkipsOnRegisters := by
  intro x y
  refine ⟨decodeWord_encode (.seVxVy x y), decodeWord_encode (.sneVxVy x y), fun n hn => ?_, fun s => ⟨?_, ?_⟩⟩
  · exact ⟨decodeWord_wordPXYN_eq_none (.inl rfl) hn x y, decodeWord_wordPXYN_eq_none (.inr rfl) hn x y⟩
  · rw [← skipPc_decide_eq]
    exact exec_of_writesOf_eq_pc rfl rfl
  · rw [← skipPc_decide_ne]
    exact exec_of_writesOf_eq_pc rfl rfl

end Sys2Proof.Machine

/-! ## Immediates (family 43)

Load and add of an immediate (R160, R161): each writes its destination register and moves `pc`. No other register is written,
so VF is a register like the others here. -/

namespace Sys2Proof.Machine

/-- An instruction that has no fault of its own and completes by writing one register completes with that register written,
every other register and component as before, and `pc` past it (R124). -/
theorem exec_of_completed_eq_advance_writeV {i : Instr} {s : State} {x : Reg} {b : Byte} (hfault : ownFault s i = none)
    (hcompleted : completed s i = advance (writeV s x b)) (hw : writesOf i = [.v, .pc]) :
    ∃ t, exec i s = .next t ∧ t.pc = s.pc + 2 ∧ (∀ r, readV t r = if r = x then b else readV s r) ∧
      SameBut [.v, .pc] s t := by
  refine ⟨_, exec_of_ownFault_eq_none hfault, ?_, fun r => ?_, hw ▸ sameBut_completed s i⟩
  · rw [hcompleted, advance_pc, writeV_pc]
  · rw [hcompleted, readV_advance, readV_writeV]

/-- Settles O17: the sum of two bytes is the sum of their numbers modulo 256, and it is the one register written. -/
theorem addImmediateSetsNoFlag : Obligations.AddImmediateSetsNoFlag := by
  intro x kk
  refine ⟨decodeWord_encode (.addVxKk x kk), fun s => ?_⟩
  obtain ⟨t, hexec, hpc, hread, hframe⟩ :=
    exec_of_completed_eq_advance_writeV (i := .addVxKk x kk) (s := s) rfl rfl rfl
  refine ⟨t, hexec, hpc, fun r => ?_, hframe⟩
  rw [hread, apply_ite BitVec.toNat, BitVec.toNat_add]

/-- Settles O16: `LD Vx,kk` has no fault, and the immediate is the one register written. -/
theorem loadImmediate : Obligations.LoadImmediate := by
  intro x kk
  exact ⟨decodeWord_encode (.ldVxKk x kk), fun s => exec_of_completed_eq_advance_writeV rfl rfl rfl⟩

end Sys2Proof.Machine

/-! ## Registers (family 44)

The register-to-register operations of family 8 (R170 to R178), by what each writes: a register alone, a register under
`Q_LOGIC_VF`, or a register and then the flag (R179); and which instructions read the quirk flags (R181). -/

namespace Sys2Proof.Machine

/-- Settles O18: `LD Vx,Vy` has no fault, and the old VY is the one register written. -/
theorem moveRegister : Obligations.MoveRegister := by
  intro x y
  exact ⟨decodeWord_encode (.ldVxVy x y), fun s => exec_of_completed_eq_advance_writeV rfl rfl rfl⟩

/-! ### The logic operations -/

/-- An instruction that has no fault of its own and completes by a logic write completes with VF 0 under `Q_LOGIC_VF`, also as
the destination, and else with the result in the destination (R171). -/
theorem exec_of_completed_eq_advance_writeLogic {i : Instr} {s : State} {x : Reg} {b : Byte} (hfault : ownFault s i = none)
    (hcompleted : completed s i = advance (writeLogic s x b)) (hw : writesOf i = [.v, .pc]) :
    ∃ t, exec i s = .next t ∧ t.pc = s.pc + 2 ∧ SameBut [.v, .pc] s t ∧
      ∀ r, readV t r = if r = 15 ∧ s.qLogicVF = true then 0 else if r = x then b else readV s r := by
  refine ⟨_, exec_of_ownFault_eq_none hfault, ?_, hw ▸ sameBut_completed s i, fun r => ?_⟩
  · rw [hcompleted, advance_pc, writeLogic_pc]
  · rw [hcompleted, readV_advance]
    exact readV_writeLogic s x b r

/-- Settles O19: none of the three has a fault, and each ends in the logic write of its result. -/
theorem logicOperations : Obligations.LogicOperations := by
  intro x y
  exact ⟨decodeWord_encode (.orVxVy x y), decodeWord_encode (.andVxVy x y), decodeWord_encode (.xorVxVy x y), fun s =>
    ⟨exec_of_completed_eq_advance_writeLogic rfl rfl rfl, exec_of_completed_eq_advance_writeLogic rfl rfl rfl,
      exec_of_completed_eq_advance_writeLogic rfl rfl rfl⟩⟩

/-! ### The operations that write a flag -/

/-- An instruction that has no fault of its own and completes by writing a result and a flag completes with the flag in VF, also
as the destination, and else with the result in the destination (R179). -/
theorem exec_of_completed_eq_advance_writeWithFlag {i : Instr} {s : State} {x : Reg} {b : Byte} {c : Bool}
    (hfault : ownFault s i = none) (hcompleted : completed s i = advance (writeWithFlag s x b c))
    (hw : writesOf i = [.v, .pc]) :
    ∃ t, exec i s = .next t ∧ t.pc = s.pc + 2 ∧ SameBut [.v, .pc] s t ∧
      ∀ r, (readV t r).toNat = if r = 15 then (flagByte c).toNat else if r = x then b.toNat else (readV s r).toNat := by
  refine ⟨_, exec_of_ownFault_eq_none hfault, ?_, hw ▸ sameBut_completed s i, fun r => ?_⟩
  · rw [hcompleted, advance_pc, writeWithFlag_pc]
  · rw [hcompleted, readV_advance, readV_writeWithFlag, apply_ite BitVec.toNat, apply_ite BitVec.toNat]
    rfl

/-- The number of a flag byte (R22). -/
theorem toNat_flagByte (c : Bool) : (flagByte c).toNat = c.toNat := by
  cases c <;> rfl

/-- The number of a flag byte that says whether a comparison holds. -/
theorem toNat_flagByte_decide (p : Prop) [Decidable p] : (flagByte (decide p)).toNat = if p then 1 else 0 := by
  rw [toNat_flagByte, Bool.toNat, Bool.cond_decide]

/-- Settles O20: the carry goes to VF last, and the sum of two bytes is the sum of their numbers modulo 256. -/
theorem addWithCarryOut : Obligations.AddWithCarryOut := by
  intro x y
  refine ⟨decodeWord_encode (.addVxVy x y), fun s => ?_⟩
  obtain ⟨t, hexec, hpc, hframe, hread⟩ :=
    exec_of_completed_eq_advance_writeWithFlag (i := .addVxVy x y) (s := s) rfl rfl rfl
  refine ⟨t, hexec, hpc, hframe, fun r => ?_⟩
  rw [hread, carryOf, toNat_flagByte_decide, BitVec.toNat_add]

/-- The difference of two bytes is the difference of their numbers modulo 256 (R10). -/
theorem toNat_sub_eq_emod (a b : Byte) : ((a - b).toNat : Int) = ((a.toNat : Int) - b.toNat) % 256 := by
  rw [BitVec.toNat_sub]
  omega

/-- An instruction that has no fault of its own and completes by writing the difference `a - b` and its NOT borrow completes with
these in VX and VF, as numbers (R175, R177). -/
theorem exec_of_completed_eq_subtraction {i : Instr} {s : State} {x : Reg} {a b : Byte} (hfault : ownFault s i = none)
    (hcompleted : completed s i = advance (writeWithFlag s x (a - b) (notBorrow a b))) (hw : writesOf i = [.v, .pc]) :
    ∃ t, exec i s = .next t ∧ t.pc = s.pc + 2 ∧ SameBut [.v, .pc] s t ∧
      ∀ r, ((readV t r).toNat : Int) = if r = 15 then (if a.toNat ≥ b.toNat then 1 else 0)
        else if r = x then (a.toNat - b.toNat : Int) % 256 else (readV s r).toNat := by
  obtain ⟨t, hexec, hpc, hframe, hread⟩ := exec_of_completed_eq_advance_writeWithFlag hfault hcompleted hw
  refine ⟨t, hexec, hpc, hframe, fun r => ?_⟩
  rw [hread, notBorrow, toNat_flagByte_decide, ← toNat_sub_eq_emod]
  push_cast
  rfl

/-- Settles O21: each is a subtraction, with minuend and subtrahend exchanged. -/
theorem subtractionsSetNotBorrow : Obligations.SubtractionsSetNotBorrow := by
  intro x y
  exact ⟨decodeWord_encode (.subVxVy x y), decodeWord_encode (.subnVxVy x y), fun s =>
    ⟨exec_of_completed_eq_subtraction rfl rfl rfl, exec_of_completed_eq_subtraction rfl rfl rfl⟩⟩

/-- The flag of `SHR` is the remainder of halving the source (R176). -/
theorem toNat_flagByte_lsbOf (b : Byte) : (flagByte (lsbOf b)).toNat = b.toNat % 2 := by
  rw [toNat_flagByte, lsbOf, BitVec.getLsbD, Nat.toNat_testBit, pow_zero, Nat.div_one]

/-- The flag of `SHL` is the top half of the byte the source lies in (R178). -/
theorem toNat_flagByte_msbOf (b : Byte) : (flagByte (msbOf b)).toNat = b.toNat / 128 := by
  rw [toNat_flagByte, msbOf, BitVec.getLsbD, Nat.toNat_testBit]
  omega

/-- Settles O22: both shifts read the source the quirk selects, and write its shift and then the bit shifted out. -/
theorem shiftsSetTheBitShiftedOut : Obligations.ShiftsSetTheBitShiftedOut := by
  intro x y
  refine ⟨decodeWord_encode (.shrVxVy x y), decodeWord_encode (.shlVxVy x y), fun s => ?_⟩
  refine ⟨(shiftSource s x y).toNat, apply_ite BitVec.toNat .., ?_, ?_⟩
  · rw [← toNat_flagByte_lsbOf, ← Nat.shiftRight_one, ← BitVec.toNat_ushiftRight]
    exact exec_of_completed_eq_advance_writeWithFlag rfl rfl rfl
  · have hshift : (shiftSource s x y <<< 1).toNat = (shiftSource s x y).toNat * 2 % 256 := by
      rw [BitVec.toNat_shiftLeft, Nat.shiftLeft_eq]
    rw [← toNat_flagByte_msbOf, ← hshift]
    exact exec_of_completed_eq_advance_writeWithFlag rfl rfl rfl

/-! ### The quirk flags -/

/-- A change of the state that an instruction's fault does not see, and that its completed state carries along, changes the
outcome by just that. -/
theorem exec_eq_mapNext {f : State → State} {i : Instr} {s : State} (hfault : ownFault (f s) i = ownFault s i)
    (hcompleted : completed (f s) i = f (completed s i)) : exec i (f s) = mapNext f (exec i s) := by
  rw [exec_eq, exec_eq, hfault, hcompleted]
  cases ownFault s i <;> rfl

/-- No fault of the table (R240) reads a quirk flag. -/
theorem ownFault_setQuirks (a b : Bool) (s : State) (i : Instr) : ownFault (setQuirks a b s) i = ownFault s i := by
  cases i <;> rfl

/-- A logic write under the same `Q_LOGIC_VF` carries `Q_SHIFT_X` along. -/
theorem writeLogic_setQuirks (a : Bool) (s : State) (x : Reg) (b : Byte) :
    writeLogic (setQuirks a s.qLogicVF s) x b = setQuirks a s.qLogicVF (writeLogic s x b) := by
  rw [writeLogic, writeLogic, apply_ite (setQuirks a s.qLogicVF)]
  rfl

/-- A block read depends on the memory alone. -/
theorem loadBytes_eq_of_mem_eq {s t : State} (h : t.mem = s.mem) (base n : Nat) :
    loadBytes t base n = loadBytes s base n := by
  induction n generalizing base with
  | zero => rfl
  | succ n ih => rw [loadBytes, loadBytes, ih, byteAt_eq, byteAt_eq, h]

/-- A draw reads no quirk flag. -/
theorem drawSprite_setQuirks (a b : Bool) (s : State) (x y : Reg) (n : Nibble) :
    drawSprite (setQuirks a b s) x y n = drawSprite s x y n := by
  rw [drawSprite, loadBytes_eq_of_mem_eq (s := s) (t := setQuirks a b s) rfl]
  rfl

/-- R181: under another setting that agrees on the flag the instruction reads, if it reads one, a completed instruction carries
the setting along. -/
theorem completed_setQuirks {i : Instr} {s : State} {a b : Bool} (hshift : ReadsShiftQuirk i → a = s.qShiftX)
    (hlogic : ReadsLogicQuirk i → b = s.qLogicVF) : completed (setQuirks a b s) i = setQuirks a b (completed s i) := by
  cases i with
  | shrVxVy x y =>
    obtain rfl := hshift ⟨x, y, .inl rfl⟩
    rfl
  | shlVxVy x y =>
    obtain rfl := hshift ⟨x, y, .inr rfl⟩
    rfl
  | orVxVy x y =>
    obtain rfl := hlogic ⟨x, y, .inl rfl⟩
    exact congrArg advance (writeLogic_setQuirks a s x _)
  | andVxVy x y =>
    obtain rfl := hlogic ⟨x, y, .inr (.inl rfl)⟩
    exact congrArg advance (writeLogic_setQuirks a s x _)
  | xorVxVy x y =>
    obtain rfl := hlogic ⟨x, y, .inr (.inr rfl)⟩
    exact congrArg advance (writeLogic_setQuirks a s x _)
  | drwVxVyN x y n =>
    simp only [completed, drawSprite_setQuirks]
    rfl
  | ldVxK x =>
    simp only [completed, releasedKeys, latchedKeys, setQuirks]
    split <;> rfl
  | _ => rfl

/-- Settles O24: the flag that changes is carried along, the other one is where it was (R36), and `SET_QUIRKS` has set both when
the next event begins. -/
theorem quirksAreReadByTheirInstructionsOnly : Obligations.QuirksAreReadByTheirInstructionsOnly := by
  refine ⟨fun i s b hi => ?_, fun i s b hi => ?_, fun q a b s => rfl⟩
  all_goals obtain ⟨hshift, hlogic⟩ := sameBut_completed s i .quirks (quirks_notMem_writesOf i)
  · refine exec_eq_mapNext (f := fun t => { t with qLogicVF := b }) (ownFault_setQuirks s.qShiftX b s i) ?_
    refine (completed_setQuirks (fun _ => rfl) fun h => absurd h hi).trans ?_
    rw [setQuirks, ← hshift]
  · refine exec_eq_mapNext (f := fun t => { t with qShiftX := b }) (ownFault_setQuirks b s.qLogicVF s i) ?_
    refine (completed_setQuirks (fun h => absurd h hi) fun _ => rfl).trans ?_
    rw [setQuirks, ← hlogic]

end Sys2Proof.Machine

/-! ## Index, jump with offset, random (family 45)

Families A, B and C (R190 to R192). None has a fault, so each completes from every state; what it leaves is its completed state. -/

namespace Sys2Proof.Machine

/-- A 12-bit immediate plus a byte is at most 0x10FE, so the target of `JP V0,nnn` does not wrap at 16 bits (R191). -/
theorem toNat_nextPc_jpV0Nnn (s : State) (nnn : Addr12) :
    (nextPc s (.jpV0Nnn nnn)).toNat = nnn.toNat + (readV s 0).toNat := by
  rw [nextPc, BitVec.toNat_ofNat]
  omega

/-- Settles O26: `JP V0,nnn` writes `pc` alone, and the sum fits 16 bits. -/
theorem jumpWithOffsetIsNotMasked : Obligations.JumpWithOffsetIsNotMasked := by
  intro nnn
  refine ⟨decodeWord_encode (.jpV0Nnn nnn), fun s => ?_⟩
  rw [← toNat_nextPc_jpV0Nnn]
  obtain ⟨t, hexec, hpc, hframe⟩ := exec_of_writesOf_eq_pc (i := .jpV0Nnn nnn) (s := s) rfl rfl
  exact ⟨t, hexec, congrArg BitVec.toNat hpc, hframe⟩

/-- The registers after `RND Vx,kk`: the draw writes none, so VX is the one that changes (R192). -/
theorem readV_completed_rndVxKk (s : State) (x : Reg) (kk : Byte) (r : Reg) :
    readV (completed s (.rndVxKk x kk)) r = if r = x then Config.randomByte s.draws &&& kk else readV s r := by
  rw [completed, readV_advance, readV_writeV, readV_drawRandom, drawRandom_fst]

/-- A byte under a mask has no bit outside the mask. -/
theorem and_and_not_eq_zero (b kk : Byte) : b &&& kk &&& ~~~kk = 0 := by
  rw [BitVec.and_assoc, BitVec.and_not_self]
  exact BitVec.and_zero

/-- Settles O27: `RND Vx,kk` has no fault, and the byte of its one draw under the mask is the one register written. -/
theorem randomByteUnderTheMask : Obligations.RandomByteUnderTheMask := by
  intro x kk
  refine ⟨decodeWord_encode (.rndVxKk x kk), fun s => ?_⟩
  refine ⟨_, exec_of_ownFault_eq_none rfl, completed_pc s (.rndVxKk x kk), rfl, readV_completed_rndVxKk s x kk, ?_,
    sameBut_completed s (.rndVxKk x kk)⟩
  rw [readV_completed_rndVxKk, if_pos rfl]
  exact and_and_not_eq_zero _ kk

/-- Settles O25: `LD I,nnn` has no fault, and leaves the zero-extended immediate in `I`. -/
theorem loadIndex : Obligations.LoadIndex := by
  intro nnn
  refine ⟨decodeWord_encode (.ldINnn nnn), fun s => ?_⟩
  have hframe := sameBut_of_subset (sameBut_completed s (.ldINnn nnn)) (show writesOf (.ldINnn nnn) ⊆ [.i, .pc] by simp [writesOf])
  exact ⟨_, exec_of_ownFault_eq_none rfl, toNat_zextAddr nnn, completed_pc s (.ldINnn nnn), hframe⟩

end Sys2Proof.Machine

/-! ## Draw (family 46)

Draw sprite (R200 to R206): the cells it toggles are those its sprite has a pixel on, and toggling the same cells again undoes
it. -/

namespace Sys2Proof.Machine

/-- The cells `DRW Vx,Vy,n` toggles (R200, R205). -/
def drawnCells (s : State) (x y : Reg) (n : Nibble) : List Nat :=
  spriteCells (readV s x).toNat (readV s y).toNat (loadBytes s (indexAddr s 0) n.toNat)

section
variable (s : State) (x y : Reg) (n : Nibble)

/-- The framebuffer and the collision flag of a draw are those of plotting its cells (R200). -/
theorem drawSprite_eq_plot_drawnCells : drawSprite s x y n = plot s.video (drawnCells s x y n) := rfl

/-- A draw toggles the cells of the screen its sprite has a pixel on (R200 to R203). -/
theorem mem_drawnCells (k : Nat) :
    k ∈ drawnCells s x y n ↔ ∃ c r, c < 64 ∧ r < 32 ∧ SpritePixel s x y n c r ∧ k = c + 64 * r := by
  simp only [drawnCells, mem_spriteCells, length_loadBytes, getElem_loadBytes]
  constructor
  · rintro ⟨row, hrow, col, hcol, hbit, hclip, rfl⟩
    exact ⟨_, _, Nat.mod_lt _ (by decide), Nat.lt_succ_of_le hclip, ⟨row, col, hrow, hcol, hbit, rfl, rfl⟩, rfl⟩
  · rintro ⟨c, r, -, hr, ⟨row, col, hrow, hcol, hbit, rfl, rfl⟩, rfl⟩
    exact ⟨row, hrow, col, hcol, hbit, Nat.le_of_lt_succ hr, rfl⟩

/-- The cell at a column and row of the screen is toggled exactly when the sprite has a pixel there: two places of the screen
are two cells (R31). -/
theorem mem_drawnCells_iff_spritePixel {c r : Nat} (hc : c < 64) (hr : r < 32) :
    c + 64 * r ∈ drawnCells s x y n ↔ SpritePixel s x y n c r := by
  rw [mem_drawnCells]
  constructor
  · rintro ⟨c', r', hc', -, hpixel, hcell⟩
    obtain ⟨rfl, rfl⟩ : c = c' ∧ r = r' := by omega
    exact hpixel
  · exact fun hpixel => ⟨c, r, hc, hr, hpixel, rfl⟩

/-- A cell after a draw: toggled if it is one of the drawn cells (R200). -/
theorem cellOf_completed_drwVxVyN (k : Nat) :
    cellOf (completed s (.drwVxVyN x y n)).video k = (cellOf s.video k ^^ decide (k ∈ drawnCells s x y n)) :=
  (plot_spriteCells s.video _ _ _).1 k

/-- A register after a draw: VF is the collision flag, every other is as before (R200). -/
theorem readV_completed_drwVxVyN (r : Reg) :
    readV (completed s (.drwVxVyN x y n)) r = if r = 15 then flagByte (drawSprite s x y n).2 else readV s r :=
  readV_setFlag _ _ r

/-- The flag byte is 1 exactly when its flag is true (R22). -/
theorem flagByte_eq_one_iff (c : Bool) : flagByte c = 1 ↔ c = true := by
  cases c <;> decide

/-- VF is 1 after a draw exactly when one of the drawn cells was set (R204). -/
theorem readV_completed_drwVxVyN_eq_one_iff :
    readV (completed s (.drwVxVyN x y n)) 15 = 1 ↔ ∃ k ∈ drawnCells s x y n, cellOf s.video k = true := by
  rw [readV_completed_drwVxVyN, if_pos rfl, flagByte_eq_one_iff, drawSprite_eq_plot_drawnCells]
  exact (plot_spriteCells s.video _ _ _).2

/-- A second draw toggles the same cells, where the coordinate registers hold what they held: a draw leaves `I` and memory. -/
theorem drawnCells_completed_drwVxVyN (hx : readV (completed s (.drwVxVyN x y n)) x = readV s x)
    (hy : readV (completed s (.drwVxVyN x y n)) y = readV s y) :
    drawnCells (completed s (.drwVxVyN x y n)) x y n = drawnCells s x y n := by
  have hmem : (completed s (.drwVxVyN x y n)).mem = s.mem := rfl
  rw [drawnCells, hx, hy, loadBytes_eq_of_mem_eq hmem]
  rfl

/-- A draw turns on the drawn cells that were clear, which are the drawn cells it leaves set. -/
theorem turnedOn_iff (k : Nat) :
    cellOf s.video k = false ∧ cellOf (completed s (.drwVxVyN x y n)).video k = true ↔
      k ∈ drawnCells s x y n ∧ cellOf (completed s (.drwVxVyN x y n)).video k = true := by
  rw [cellOf_completed_drwVxVyN]
  by_cases hk : k ∈ drawnCells s x y n <;> simp [hk]

end

/-- Settles O28: by whether the bytes lie in memory; where they do, cell by cell and register by register. -/
theorem drawTogglesExactlyTheSpritePixels : Obligations.DrawTogglesExactlyTheSpritePixels := by
  intro x y n
  refine ⟨decodeWord_encode (.drwVxVyN x y n), fun s => ⟨fun hout => ?_, fun hin => ?_⟩⟩
  · exact exec_of_ownFault_eq_some (if_pos hout)
  · have hframe := sameBut_of_subset (sameBut_completed s (.drwVxVyN x y n))
      (show writesOf (.drwVxVyN x y n) ⊆ [.v, .video, .pc] by simp [writesOf])
    refine ⟨_, exec_of_ownFault_eq_none (if_neg hin), completed_pc s (.drwVxVyN x y n), fun c r hc hr => ?_,
      readV_advance_setFlag_cases _ _, ?_, fun q hq => ?_, hframe⟩
    · rw [cellOf_completed_drwVxVyN, ← mem_drawnCells_iff_spritePixel s x y n hc hr, Bool.xor_iff_ne]
      cases cellOf s.video (c + 64 * r) <;> simp
    · rw [readV_completed_drwVxVyN_eq_one_iff]
      simp only [mem_drawnCells]
      constructor
      · rintro ⟨_, ⟨c, r, hc, hr, hpixel, rfl⟩, hset⟩
        exact ⟨c, r, hc, hr, hpixel, hset⟩
      · rintro ⟨c, r, hc, hr, hpixel, hset⟩
        exact ⟨_, ⟨c, r, hc, hr, hpixel, rfl⟩, hset⟩
    · rw [readV_completed_drwVxVyN, if_neg hq]

/-- Settles O29: both draws toggle the same cells, so each cell is toggled twice or not at all, and the second draw finds set
exactly the drawn cells the first turned on. -/
theorem drawingTwiceRestores : Obligations.DrawingTwiceRestores := by
  intro x y n s t u hfirst hsecond hx hy
  obtain ⟨-, rfl⟩ := exec_eq_next_iff.1 hfirst
  obtain ⟨-, rfl⟩ := exec_eq_next_iff.1 hsecond
  have hcells := drawnCells_completed_drwVxVyN s x y n hx hy
  refine ⟨video_ext fun k _ => ?_, ?_⟩
  · rw [cellOf_completed_drwVxVyN, hcells, cellOf_completed_drwVxVyN, Bool.xor_assoc, Bool.xor_self, Bool.xor_false]
  · rw [readV_completed_drwVxVyN_eq_one_iff, hcells]
    simp only [turnedOn_iff]
    constructor
    · rintro ⟨k, hk, hset⟩
      exact ⟨k, spriteCells_lt hk, hk, hset⟩
    · rintro ⟨k, -, hk, hset⟩
      exact ⟨k, hk, hset⟩

end Sys2Proof.Machine

/-! ## Keypad (family 47)

The keypad skips (R210, R211, R213), one pass of `LD Vx,K` (R212, R214), and the key events (R260) that drive it. -/

namespace Sys2Proof.Machine

/-- The skip on a negated condition (R211). -/
theorem skipPc_not (c : Bool) (s : State) : skipPc (!c) s = if c = true then s.pc + 2 else s.pc + 4 := by
  cases c <;> rfl

/-- Settles O30: by whether VX is a key number; where it is, each skip moves `pc` by the bit of that key. -/
theorem keySkipsTestTheKeypadBit : Obligations.KeySkipsTestTheKeypadBit := by
  intro x
  refine ⟨decodeWord_encode (.skpVx x), decodeWord_encode (.sknpVx x), fun s => ⟨fun hout => ?_, fun hin => ?_⟩⟩
  · exact ⟨exec_of_ownFault_eq_some (if_pos hout), exec_of_ownFault_eq_some (if_pos hout)⟩
  · obtain ⟨t, hskp, hpc, hframe⟩ := exec_of_writesOf_eq_pc (i := .skpVx x) (if_neg hin.not_gt) rfl
    obtain ⟨u, hsknp, hpc', hframe'⟩ := exec_of_writesOf_eq_pc (i := .sknpVx x) (if_neg hin.not_gt) rfl
    exact ⟨⟨t, hskp, hframe, hpc⟩, ⟨u, hsknp, hframe', hpc'.trans (skipPc_not _ s)⟩⟩

/-! ### A pass of `LD Vx,K` -/

section
variable {s : State} {k : Nat}

/-- A key is latched after a pass when it was before or is down now (R212). -/
theorem getLsbD_latchedKeys : (latchedKeys s).getLsbD k = (s.keylatch.getLsbD k || s.keypad.getLsbD k) :=
  BitVec.getLsbD_or

/-- A key is released when it is latched and up (R212). -/
theorem getLsbD_releasedKeys (hk : k < 16) :
    (releasedKeys s).getLsbD k = true ↔ s.keylatch.getLsbD k = true ∧ s.keypad.getLsbD k = false := by
  rw [releasedKeys, BitVec.getLsbD_and, getLsbD_latchedKeys, BitVec.getLsbD_not]
  cases s.keylatch.getLsbD k <;> cases s.keypad.getLsbD k <;> simp [hk]

/-- The scan answers the least released key (R214). -/
theorem lowestKey_releasedKeys (hk : k < 16) (hreleased : s.keylatch.getLsbD k = true ∧ s.keypad.getLsbD k = false)
    (hleast : ∀ j, j < k → ¬ (s.keylatch.getLsbD j = true ∧ s.keypad.getLsbD j = false)) :
    lowestKey (releasedKeys s) = some k := by
  refine (lowestKey_eq_some _ k).2 ⟨hk, (getLsbD_releasedKeys hk).2 hreleased, fun j hj => ?_⟩
  rw [← Bool.not_eq_true, getLsbD_releasedKeys (hj.trans hk)]
  exact hleast j hj

/-- Without a released key a pass of `LD Vx,K` only lets the latch grow (R212). -/
theorem completed_ldVxK_of_none (x : Reg) (h : lowestKey (releasedKeys s) = none) :
    completed s (.ldVxK x) = { s with keylatch := latchedKeys s } := by
  rw [completed, h]

/-- With a released key a pass of `LD Vx,K` reports the one found and clears the latch (R212). -/
theorem completed_ldVxK_of_some (x : Reg) (h : lowestKey (releasedKeys s) = some k) :
    completed s (.ldVxK x) = advance (writeV { s with keylatch := 0 } x (BitVec.ofNat 8 k)) := by
  rw [completed, h]

/-- The byte a key is reported as has the key's number (R212). -/
theorem toNat_ofNat_key (hk : k < 16) : (BitVec.ofNat 8 k).toNat = k :=
  (BitVec.toNat_ofNat k 8).trans (Nat.mod_eq_of_lt (by omega))

end

/-- Settles O31: `LD Vx,K` has no fault, and its pass is that of the scan's answer. -/
theorem keyWaitPass : Obligations.KeyWaitPass := by
  intro x
  refine ⟨decodeWord_encode (.ldVxK x), fun s => ⟨fun hnone => ?_, fun k hk hlatched hup hleast => ?_⟩⟩
  · have hscan := (lowestKey_eq_none _).2 ((releasedKeys_eq_zero_iff s).2 hnone)
    refine ⟨_, exec_of_ownFault_eq_none rfl, ?_⟩
    rw [completed_ldVxK_of_none x hscan]
    exact ⟨fun k _ => getLsbD_latchedKeys, sameBut_takeParts [.keylatch] s { s with keylatch := latchedKeys s }⟩
  · have hscan := lowestKey_releasedKeys hk ⟨hlatched, hup⟩ hleast
    have hframe := sameBut_of_subset (sameBut_completed s (.ldVxK x))
      (show writesOf (.ldVxK x) ⊆ [.v, .keylatch, .pc] by simp [writesOf])
    refine ⟨_, exec_of_ownFault_eq_none rfl, ?_⟩
    rw [completed_ldVxK_of_some x hscan] at hframe ⊢
    refine ⟨fun r => ?_, rfl, rfl, hframe⟩
    rw [readV_advance, readV_writeV, apply_ite BitVec.toNat, toNat_ofNat_key hk]
    rfl

/-- Settles O32: two passes of `LD Vx,K`, the first with key k down and none latched, the second with k latched and no key down. -/
theorem keyWaitCompletesOnReleaseNotOnPress : Obligations.KeyWaitCompletesOnReleaseNotOnPress := by
  intro x k s hkeypad hlatch
  obtain ⟨-, hpass⟩ := keyWaitPass x
  obtain ⟨hwait, -⟩ := hpass (keySet k s)
  obtain ⟨t, hpress, hgrown, hframe⟩ := hwait (by simp [keySet, hlatch])
  have hpc : t.pc = s.pc := hframe .pc (by decide)
  have hdown : t.keypad = BitVec.twoPow 16 k.val := (hframe .keypad (by decide)).trans (by simp [keySet, hkeypad])
  have hlatched : t.keylatch = BitVec.twoPow 16 k.val :=
    BitVec.eq_of_getLsbD_eq fun j hj => (hgrown j hj).trans (by simp [keySet, hlatch, hkeypad])
  have hup : (keyClear k t).keypad = 0 := by rw [keyClear, hdown, BitVec.and_not_self]
  have hbit : ∀ j, (keyClear k t).keylatch.getLsbD j = true ↔ j = k.val := fun j => by
    simp [keyClear, hlatched, BitVec.getLsbD_twoPow, eq_comm]
  obtain ⟨-, hreport⟩ := hpass (keyClear k t)
  obtain ⟨u, hrelease, hread, hcleared, hpc', -⟩ := hreport k.val k.isLt ((hbit k.val).2 rfl) (by simp [hup])
    fun j hj ⟨hj', _⟩ => hj.ne ((hbit j).1 hj')
  exact ⟨t, u, hpress, hpc, hlatched, hrelease, (hread x).trans (if_pos rfl), hpc'.trans (congrArg (· + 2) hpc), hcleared⟩

end Sys2Proof.Machine

/-! ## Timer, index, memory (family 48)

Family F without the key wait (R220 to R227): the timer moves, the arithmetic on `I`, and the three instructions that move bytes
between registers and memory under one range check. -/

namespace Sys2Proof.Machine

/-! ### The timers -/

/-- An `EXECUTE` of an instruction with no fault, other than `LD Vx,K`, answers ok with the completed state (R7, R120). -/
theorem execute_of_ownFault_eq_none {s : State} {i : Instr} (hfetch : fetchInstr s = .ok i) (hok : ownFault s i = none)
    (hi : ∀ x, i ≠ .ldVxK x) : execute s = (completed s i, .ok) := by
  have hstep : step s = .next (completed s i) := (step_of_fetchInstr hfetch).trans (exec_of_ownFault_eq_none hok)
  have hwait : ¬ waitingPass s = true := by
    rw [waitingPass_iff]
    rintro ⟨⟨x, hx⟩, -⟩
    exact hi x (Except.ok.inj (hfetch.symm.trans hx))
  simp only [execute, hstep, if_neg hwait]

/-- The frame of a completed instruction, with its written components in any order. -/
theorem sameBut_completed_of_subset {i : Instr} {parts : List Part} (s : State) (h : writesOf i ⊆ parts) :
    SameBut parts s (completed s i) := sameBut_of_subset (sameBut_completed s i) h

/-- Settles O33: none of the three has a fault or waits, and each leaves its source in its destination. -/
theorem timerMoves : Obligations.TimerMoves := by
  intro x
  refine ⟨decodeWord_encode (.ldVxDt x), decodeWord_encode (.ldDtVx x), decodeWord_encode (.ldStVx x), fun s =>
    ⟨?_, ?_, ?_, fun i hi hfetch => ?_⟩⟩
  · obtain ⟨t, hexec, hpc, hread, hframe⟩ :=
      exec_of_completed_eq_advance_writeV (i := .ldVxDt x) (s := s) rfl rfl rfl
    exact ⟨t, hexec, hread, hpc, hframe⟩
  · exact ⟨_, exec_of_ownFault_eq_none rfl, rfl, rfl, sameBut_completed_of_subset s (by simp [writesOf])⟩
  · exact ⟨_, exec_of_ownFault_eq_none rfl, rfl, rfl, sameBut_completed_of_subset s (by simp [writesOf])⟩
  · simp only [List.mem_cons, List.not_mem_nil, or_false] at hi
    rcases hi with rfl | rfl | rfl <;> rw [execute_of_ownFault_eq_none hfetch rfl nofun]

/-! ### The index -/

/-- Zero-extension keeps the number of a byte (R10). -/
theorem toNat_zextByte (b : Byte) : (zextByte b).toNat = b.toNat :=
  BitVec.toNat_setWidth_of_le (by decide)

/-- Five times a byte fits 16 bits (R224). -/
theorem toNat_glyphAddr (b : Byte) : (glyphAddr b).toNat = b.toNat * 5 := by
  rw [glyphAddr, BitVec.toNat_mul, toNat_zextByte]
  exact Nat.mod_eq_of_lt (show b.toNat * 5 < 65536 by omega)

/-- Settles O34: neither instruction has a fault; the sum is one of 16 bits, and the product fits them. -/
theorem indexArithmetic : Obligations.IndexArithmetic := by
  intro x
  refine ⟨decodeWord_encode (.addIVx x), decodeWord_encode (.ldFVx x), fun s => ⟨?_, ?_⟩⟩
  · have hsum : (s.i + zextByte (readV s x)).toNat = (s.i.toNat + (readV s x).toNat) % 65536 := by
      rw [BitVec.toNat_add, toNat_zextByte]
    exact ⟨_, exec_of_ownFault_eq_none rfl, hsum, rfl, sameBut_completed_of_subset s (by simp [writesOf])⟩
  · exact ⟨_, exec_of_ownFault_eq_none rfl, toNat_glyphAddr (readV s x), rfl,
      sameBut_completed_of_subset s (by simp [writesOf])⟩

/-! ### Bytes from `I` -/

/-- The data fault of `n + 1` bytes from `I`: whether the last of them lies above 0xFFF (R244). -/
theorem dataFault_succ (s : State) (n : Nat) :
    dataFault s (n + 1) =
      if s.i.toNat + n > 0xFFF then some (.addressFault (max s.i.toNat 0x1000)) else none :=
  if_congr (by omega) rfl rfl

section
variable (s : State) (base : Nat) (bytes : List Byte)

/-- Stored bytes lie at their addresses (R67). -/
theorem byteAt_storeBytes_add {k : Nat} (hk : k < bytes.length) :
    byteAt (storeBytes s base bytes) (base + k) = bytes[k] := by
  rw [byteAt_storeBytes, dif_pos ⟨Nat.le_add_right base k, by omega⟩]
  simp only [Nat.add_sub_cancel_left]

/-- Outside the range stored to, every byte is as before (R69). -/
theorem byteAt_storeBytes_of_outside {a : Nat} (ha : ¬ (base ≤ a ∧ a < base + bytes.length)) :
    byteAt (storeBytes s base bytes) a = byteAt s a := by
  rw [byteAt_storeBytes, dif_neg (by omega)]

end

/-- Settles O35: by whether the third byte lies in memory; where it does, address by address. -/
theorem bcdStoresThreeDigits : Obligations.BcdStoresThreeDigits := by
  intro x
  refine ⟨decodeWord_encode (.ldBVx x), fun s => ⟨fun hout => ?_, fun hin => ?_⟩⟩
  · exact exec_of_ownFault_eq_some ((dataFault_succ s 2).trans (if_pos hout))
  · refine ⟨_, exec_of_ownFault_eq_none ((dataFault_succ s 2).trans (if_neg hin.not_gt)), completed_pc s (.ldBVx x),
      sameBut_completed_of_subset s (by simp [writesOf]), fun a => ?_⟩
    have hstored : ∀ k (hk : k < 3), byteAt (completed s (.ldBVx x)) (s.i.toNat + k) = (bcdDigits (readV s x))[k] :=
      fun k hk => byteAt_storeBytes_add s s.i.toNat (bcdDigits (readV s x)) hk
    split_ifs with h0 h1 h2
    · subst h0
      exact congrArg BitVec.toNat (hstored 0 (by decide))
    · subst h1
      exact congrArg BitVec.toNat (hstored 1 (by decide))
    · subst h2
      exact congrArg BitVec.toNat (hstored 2 (by decide))
    · exact congrArg BitVec.toNat
        (byteAt_storeBytes_of_outside s s.i.toNat (bcdDigits (readV s x)) (by rw [length_bcdDigits]; omega))

/-- Settles O36: by whether the last byte lies in memory; where it does, each register is the byte stored for it. -/
theorem blockStore : Obligations.BlockStore := by
  intro x
  refine ⟨decodeWord_encode (.ldMemVx x), fun s => ⟨fun hout => ?_, fun hin => ?_⟩⟩
  · exact exec_of_ownFault_eq_some ((dataFault_succ s x.val).trans (if_pos hout))
  · refine ⟨_, exec_of_ownFault_eq_none ((dataFault_succ s x.val).trans (if_neg hin.not_gt)), completed_pc s (.ldMemVx x),
      sameBut_completed_of_subset s (by simp [writesOf]), fun r hr => ?_, fun a ha => ?_⟩
    · have hlen : r.val < (registersTo s x).length := by rw [length_registersTo]; exact Nat.lt_succ_of_le hr
      exact (byteAt_storeBytes_add s s.i.toNat _ hlen).trans (getElem_registersTo s x r.val hlen)
    · exact byteAt_storeBytes_of_outside s s.i.toNat (registersTo s x) (by rw [length_registersTo]; omega)

/-- The registers after a block load from `I` (R227). -/
theorem readV_completed_ldVxMem (s : State) (x r : Reg) :
    readV (completed s (.ldVxMem x)) r = if r ≤ x then byteAt s (s.i.toNat + r.val) else readV s r := by
  rw [completed, readV_advance, readV_loadRegisters, indexAddr, Nat.add_zero]

/-- Settles O37: by whether the last byte lies in memory; where it does, register by register. -/
theorem blockLoad : Obligations.BlockLoad := by
  intro x
  refine ⟨decodeWord_encode (.ldVxMem x), fun s => ⟨fun hout => ?_, fun hin => ?_⟩⟩
  · exact exec_of_ownFault_eq_some ((dataFault_succ s x.val).trans (if_pos hout))
  · exact ⟨_, exec_of_ownFault_eq_none ((dataFault_succ s x.val).trans (if_neg hin.not_gt)), completed_pc s (.ldVxMem x),
      sameBut_completed s (.ldVxMem x), readV_completed_ldVxMem s x⟩

/-- Settles O38: the store completed, so the range from `I` lies in memory, and the load reads back the bytes stored. -/
theorem storeThenLoadRestoresRegisters : Obligations.StoreThenLoadRestoresRegisters := by
  intro x s t u hstore hi hmem
  have hin : s.i.toNat + x.val ≤ 0xFFF := by
    obtain ⟨hok, -⟩ := exec_eq_next_iff.1 hstore
    by_contra hout
    simp [ownFault, dataFault_succ, hout] at hok
  obtain ⟨t', hstore', -, -, hstored, -⟩ := ((blockStore x).2 s).2 hin
  obtain rfl : t = t' := Host.Outcome.next.inj (hstore.symm.trans hstore')
  obtain ⟨z, hload, -, -, hread⟩ := ((blockLoad x).2 u).2 (hi ▸ hin)
  refine ⟨z, hload, fun r hr => ?_⟩
  rw [hread, if_pos hr, hmem, hi, hstored r hr]

end Sys2Proof.Machine

/-! ## Exceptions and events (family 60)

The faults of the table R240 (an unknown word, an address above 0xFFF, an instruction's own), that every one of them is precise
and repeats (R246), the driver that stops at one (R248), and the events of the timers, the keypad, the quirks and the screen. -/

namespace Sys2Proof.Machine

/-! ### The fault of a step -/

/-- When an instruction faults, and how (R240). -/
theorem exec_eq_fault_iff {i : Instr} {s : State} {f : Fault} : exec i s = .fault f ↔ ownFault s i = some f := by
  rw [exec_eq]
  cases ownFault s i <;> simp

/-- An instruction's own fault is never an unknown opcode: that one is raised at decode (R240, R241). -/
theorem ownFault_ne_unknownOpcode (s : State) (i : Instr) (op addr : Word) : ownFault s i ≠ some (.unknownOpcode op addr) := by
  cases i <;> simp [ownFault, dataFault]

/-- The fetch never reports an unknown opcode (R121). -/
theorem fetchWord_ne_unknownOpcode (s : State) (op addr : Word) : fetchWord s ≠ .error (.unknownOpcode op addr) := by
  by_cases hpc : s.pc.toNat ≤ 0xFFE
  · rw [(fetchWord_eq_ok s _).2 ⟨hpc, rfl⟩]
    exact nofun
  · rw [fetchWord_of_pc_gt (by omega)]
    exact nofun

/-- The decode reports an unknown opcode exactly where the fetched word has no row, with the word and `pc` (R241). -/
theorem fetchInstr_eq_unknownOpcode_iff (s : State) (op addr : Word) :
    fetchInstr s = .error (.unknownOpcode op addr) ↔ fetchWord s = .ok op ∧ decodeWord op = none ∧ addr = s.pc := by
  have hfetch := fetchWord_ne_unknownOpcode s op addr
  unfold fetchInstr
  cases hw : fetchWord s with
  | error f => simpa [hw] using hfetch
  | ok w =>
    by_cases hop : w = op
    · subst hop
      cases hd : decodeWord w <;> simp [hd, eq_comm]
    · cases hd : decodeWord w <;> simp [hd, hop]

/-- A step reports an unknown opcode exactly when its decode does. -/
theorem step_eq_unknownOpcode_iff (s : State) (op addr : Word) :
    step s = .fault (.unknownOpcode op addr) ↔ fetchInstr s = .error (.unknownOpcode op addr) := by
  unfold step raise
  cases fetchInstr s with
  | error f => simp
  | ok i => simpa [exec_eq_fault_iff] using ownFault_ne_unknownOpcode s i op addr

/-- An `EXECUTE` whose step faults answers the fault and leaves the state (R127, R246). -/
theorem execute_of_step_fault {s : State} {f : Fault} (h : step s = .fault f) : execute s = (s, .fault f) := by
  simp only [execute, h]

/-- An `EXECUTE` answers a fault exactly when its step does (R127). -/
theorem execute_snd_eq_fault_iff {s : State} {f : Fault} : (execute s).2 = .fault f ↔ step s = .fault f := by
  refine ⟨fun h => ?_, fun h => congrArg Prod.snd (execute_of_step_fault h)⟩
  cases hs : step s with
  | next t =>
    simp only [execute, hs] at h
    split at h <;> cases h
  | fault g => simpa [execute_of_step_fault hs] using h
  | refused r => exact absurd hs (step_ne_refused s r)

/-- Settles O8: the fault is that of the decode, and the words with no row are the unknown ones. -/
theorem unknownOpcodeIsReportedWithWordAndAddress : Obligations.UnknownOpcodeIsReportedWithWordAndAddress := by
  intro s op addr
  refine ⟨?_, fun h => ?_⟩
  · rw [execute_snd_eq_fault_iff, step_eq_unknownOpcode_iff, fetchInstr_eq_unknownOpcode_iff,
      unknownWordsAreExactlyTheSixClasses]
  · rw [execute_of_step_fault (execute_snd_eq_fault_iff.1 h)]

/-- The data fault of `count` bytes from `I`, with its payload (R244). -/
theorem dataFault_eq_some_iff {s : State} {count a : Nat} :
    dataFault s count = some (.addressFault a) ↔
      (count > 0 ∧ s.i.toNat + count - 1 > 0xFFF) ∧ a = max s.i.toNat 0x1000 := by
  unfold dataFault
  split
  · next h => simp [h, eq_comm]
  · next h => simp [h]

/-- The data fault of `n + 1` bytes from `I`, by the last of them (R244). -/
theorem dataFault_succ_eq_some_iff {s : State} {n a : Nat} :
    dataFault s (n + 1) = some (.addressFault a) ↔ s.i.toNat + n > 0xFFF ∧ a = max s.i.toNat 0x1000 :=
  dataFault_eq_some_iff.trans (and_congr_left' (by omega))

/-- Settles O39: the fetch from its own law, the four memory instructions from the table, and the rest from the step's fault. -/
theorem addressFaultTable : Obligations.AddressFaultTable := by
  intro s
  obtain ⟨-, habove, hlast⟩ := fetchIsBigEndianAndFaultsAboveMemory s
  exact ⟨habove, hlast, fun x y n a => exec_eq_fault_iff.trans dataFault_eq_some_iff,
    fun x a => exec_eq_fault_iff.trans dataFault_succ_eq_some_iff,
    fun x a => exec_eq_fault_iff.trans dataFault_succ_eq_some_iff,
    fun x a => exec_eq_fault_iff.trans dataFault_succ_eq_some_iff,
    fun a h => congrArg Prod.fst (execute_of_step_fault h)⟩

/-- Settles O40: `exec_eq` read in both cases of the table. -/
theorem everyInstructionCompletesOrRaisesItsOwnFault : Obligations.EveryInstructionCompletesOrRaisesItsOwnFault := by
  intro i s
  exact ⟨fun f => exec_of_ownFault_eq_some, fun h => ⟨completed s i, exec_of_ownFault_eq_none h⟩⟩

/-! ### Precise faults -/

/-- An outcome that is answered with a fault leaves the state (R246). -/
theorem replyOf_of_fault {s : State} {r : Result} {f : Fault} (h : (replyOf s r).2 = .fault f) :
    replyOf s r = (s, .fault f) := by
  cases r with
  | next t => cases h
  | fault g => exact congrArg (Prod.mk s) h
  | refused g => cases h

/-- An event that answers a fault leaves the state (R246): only an `EXECUTE` and a `LOAD` can. -/
theorem send_of_fault {q : QuirkDefaults} {e : Event} {s : State} {f : Fault} (h : (send q e s).2 = .fault f) :
    send q e s = (s, .fault f) := by
  cases e with
  | execute => exact execute_of_step_fault (execute_snd_eq_fault_iff.1 h)
  | load bytes => exact replyOf_of_fault h
  | timerTick =>
    simp only [send, timerTick] at h
    split at h <;> cases h
  | _ => cases h

/-- Settles O45: the state is as before, so the event meets it again. -/
theorem faultsArePreciseAndRepeat : Obligations.FaultsArePreciseAndRepeat := by
  intro q e s f h
  have hsend := send_of_fault h
  simp only [hsend, and_self]

/-! ### The driver -/

section
variable {q : QuirkDefaults} {e : Event} {d d' : Driver} {r : Reply}

/-- An event goes out unless a faulted driver holds it back, and acts on the machine as always (R248). -/
theorem driverSend_eq_some_iff :
    driverSend q e d = some (d', r) ↔ (d.faulted && heldBack e) = false ∧
      ⟨(send q e d.core).1, faultedAfter d.faulted e (send q e d.core).2⟩ = d' ∧ (send q e d.core).2 = r := by
  unfold driverSend
  cases d.faulted && heldBack e <;> simp

/-- A faulted driver holds back what R248 names. -/
theorem driverSend_eq_none (hd : d.faulted = true) (he : heldBack e = true) : driverSend q e d = none := by
  simp [driverSend, hd, he]

/-- Only `EXECUTE` and `TIMER_TICK` are held back (R248). -/
theorem heldBack_eq_false (hexecute : e ≠ .execute) (htick : e ≠ .timerTick) : heldBack e = false := by
  cases e with
  | execute => exact absurd rfl hexecute
  | timerTick => exact absurd rfl htick
  | _ => rfl

/-- Only a `RESET` or an `INITIALIZE` ends a faulted run (R248). -/
theorem faultedAfter_true (hreset : e ≠ .reset) (hinit : e ≠ .initialise) : faultedAfter true e r = true := by
  cases e with
  | reset => exact absurd rfl hreset
  | initialise => exact absurd rfl hinit
  | execute => cases r <;> rfl
  | _ => rfl

end

/-- Settles O59: by which events a faulted driver holds back, and which end the run's fault. -/
theorem faultedDriverHoldsBack : Obligations.FaultedDriverHoldsBack := by
  intro q d
  refine ⟨fun d' f h => ?_, fun hd => ?_, fun e d' r hreset hinit hd h => ?_, fun e hexecute htick => ?_, fun hd => ?_⟩
  · obtain ⟨-, rfl, hreply⟩ := driverSend_eq_some_iff.1 h
    rw [send_of_fault hreply]
    exact ⟨rfl, rfl⟩
  · have hsent : ∀ e, heldBack e = false → (d.faulted && heldBack e) = false := fun e he => by simp [he]
    exact ⟨driverSend_eq_none hd rfl, driverSend_eq_none hd rfl,
      ⟨_, _, driverSend_eq_some_iff.2 ⟨hsent _ rfl, rfl, rfl⟩, rfl⟩,
      ⟨_, _, driverSend_eq_some_iff.2 ⟨hsent _ rfl, rfl, rfl⟩, rfl⟩⟩
  · obtain ⟨-, rfl, -⟩ := driverSend_eq_some_iff.1 h
    rw [hd]
    exact faultedAfter_true hreset hinit
  · have hsent : (d.faulted && heldBack e) = false := by simp [heldBack_eq_false hexecute htick]
    exact ⟨_, _, driverSend_eq_some_iff.2 ⟨hsent, rfl, rfl⟩, rfl⟩
  · have hsent : (d.faulted && heldBack .execute) = false := by simp [hd]
    exact ⟨_, _, driverSend_eq_some_iff.2 ⟨hsent, rfl, rfl⟩, rfl⟩

/-! ### The timers -/

/-- A timer counts down with floor 0 (R28, R29). -/
theorem toNat_countDown (b : Byte) : (countDown b).toNat = b.toNat - 1 := by
  unfold countDown
  split
  · next h => rw [h]; rfl
  · next h => exact BitVec.toNat_sub_of_le (by bv_omega)

/-- An outcome is never answered with `BEEP_STOP`. -/
theorem replyOf_snd_ne_beepStop (s : State) (r : Result) : (replyOf s r).2 ≠ .beepStop := by
  cases r <;> exact nofun

/-- Only a `TIMER_TICK` answers `BEEP_STOP` (R257). -/
theorem eq_timerTick_of_beepStop {q : QuirkDefaults} {e : Event} {s : State} (h : (send q e s).2 = .beepStop) :
    e = .timerTick := by
  cases e with
  | timerTick => rfl
  | execute => exact absurd h (execute_snd_ne_beepStop s)
  | load bytes => exact absurd h (replyOf_snd_ne_beepStop s _)
  | _ => cases h

/-- Settles O51: both timers by their floor, the reply by whether `ST` is 1, and the other events by their replies. -/
theorem timerTickCountsDown : Obligations.TimerTickCountsDown := by
  intro q s
  have hreply : (timerTick s).2 = if s.st.toNat = 1 then .beepStop else .ok :=
    if_congr BitVec.toNat_inj.symm rfl rfl
  exact ⟨toNat_countDown s.dt, toNat_countDown s.st, hreply, sameBut_takeParts [.dt, .st] s (timerTick s).1,
    fun e => eq_timerTick_of_beepStop⟩

/-! ### The keypad, the quirks, the screen -/

section
variable (k : Reg) (s : State) {j : Nat}

/-- `KEY_SET` puts the one key down (R260). -/
theorem getLsbD_keypad_keySet : (keySet k s).keypad.getLsbD j = if j = k.val then true else s.keypad.getLsbD j := by
  rw [keySet, BitVec.getLsbD_or, BitVec.getLsbD_twoPow]
  by_cases h : j = k.val
  · simp [h]
  · simp [h, Ne.symm h]

/-- `KEY_CLEAR` puts the one key up (R260). -/
theorem getLsbD_keypad_keyClear (hj : j < 16) :
    (keyClear k s).keypad.getLsbD j = if j = k.val then false else s.keypad.getLsbD j := by
  rw [keyClear, BitVec.getLsbD_and, BitVec.getLsbD_not, BitVec.getLsbD_twoPow]
  by_cases h : j = k.val
  · simp [h]
  · simp [h, hj, Ne.symm h]

end

/-- Settles O52: bit by bit, and the frame of the one component written. -/
theorem keyEventsChangeOneBit : Obligations.KeyEventsChangeOneBit := by
  intro q k s
  exact ⟨fun j _ => getLsbD_keypad_keySet k s, fun j => getLsbD_keypad_keyClear k s,
    sameBut_takeParts [.keypad] s (keySet k s), sameBut_takeParts [.keypad] s (keyClear k s), rfl, rfl⟩

/-- Settles O53: both events by their definitions. -/
theorem quirkAndVideoEvents : Obligations.QuirkAndVideoEvents := by
  intro q a b s
  exact ⟨rfl, rfl⟩

end Sys2Proof.Machine

/-! ## Initialise, load, boot (family 70)

What the host leaves before the first `EXECUTE`: the font and zeros after `INITIALIZE` (R281), the image after `LOAD` (R283),
and both after the boot sequence (R285, R286). -/

namespace Sys2Proof.Machine

section
variable (q : QuirkDefaults) (s : State) {a : Nat}

/-- After `INITIALIZE` every byte is that of the font table, or 0 beyond it (R281). -/
theorem byteAt_hostInitialise (a : Nat) : byteAt (hostInitialise q s) a = fontTable.getD a 0 := rfl

/-- The font ends at 0x04F (R42). -/
theorem byteAt_hostInitialise_eq_zero (ha : 0x050 ≤ a) : byteAt (hostInitialise q s) a = 0 :=
  List.getD_eq_default fontTable 0 ha

/-- `INITIALIZE` is a `RESET` over other memory (R281). -/
theorem sameBut_mem_hostReset_hostInitialise : SameBut [.mem] (hostReset q s) (hostInitialise q s) :=
  sameBut_takeParts [.mem] (hostReset q s) (hostInitialise q s)

end

/-- Settles O55: the memory byte by byte, and the rest as `RESET` leaves it. -/
theorem initialiseWritesFontAndResets : Obligations.InitialiseWritesFontAndResets := by
  intro q s
  exact ⟨hostInitialise q s, rfl, fun a _ => byteAt_hostInitialise q s a, fun a => byteAt_hostInitialise_eq_zero q s,
    sameBut_mem_hostReset_hostInitialise q s⟩

section
variable {bytes : List Byte} {s : State}

/-- A `LOAD` of an image that fits stores it (R283). -/
theorem hostLoad_of_fits (h : bytes.length ≤ 3584) : hostLoad bytes s = .next (storeBytes s Config.loadBase bytes) :=
  hostLoad_eq_next_iff.2 ⟨h, rfl⟩

/-- A `LOAD` of an image that does not fit is refused (R251, R283). -/
theorem hostLoad_of_too_long (h : bytes.length > 3584) : hostLoad bytes s = .fault .capacityError := by
  have hlong : ¬ bytes.length ≤ Config.maxProgram := h.not_ge
  simp [hostLoad, wellFormedImage, hlong, raise]

/-- A byte of the loaded image (R283). -/
theorem byteAt_storeBytes_getD (base : Nat) {k : Nat} (hk : k < bytes.length) :
    byteAt (storeBytes s base bytes) (base + k) = bytes.getD k 0 := by
  rw [byteAt_storeBytes_add s base bytes hk, List.getD_eq_getElem bytes 0 hk]

end

/-- Settles O56: by whether the image fits; where it does, by whether an address lies in the image. -/
theorem loadCopiesOrRefuses : Obligations.LoadCopiesOrRefuses := by
  intro q bytes s
  refine ⟨fun hfits => ⟨_, congrArg (replyOf s) (hostLoad_of_fits hfits),
    sameBut_takeParts [.mem] s (storeBytes s Config.loadBase bytes), fun a => ?_⟩, fun hlong => ?_⟩
  · split
    · next ha =>
      obtain ⟨k, rfl⟩ := Nat.exists_eq_add_of_le ha.1
      rw [Nat.add_sub_cancel_left]
      exact byteAt_storeBytes_getD 0x200 (by omega)
    · next ha => exact byteAt_storeBytes_of_outside s 0x200 bytes ha
  · exact congrArg (replyOf s) (hostLoad_of_too_long hlong)

/-- The state the boot sequence leaves: the loaded image over a fresh machine, and the quirk flags asked for (R285). -/
def booted (q : QuirkDefaults) (image : List Byte) (quirks : Option (Bool × Bool)) (s : State) : State :=
  setQuirks (quirks.getD (q.shiftX, q.logicVF)).1 (quirks.getD (q.shiftX, q.logicVF)).2
    (storeBytes (hostInitialise q s) Config.loadBase image)

/-- The boot sequence with an image that fits (R285): without a `SET_QUIRKS` the flags are the defaults. -/
theorem boot_of_fits {image : List Byte} (q : QuirkDefaults) (quirks : Option (Bool × Bool)) (s : State)
    (h : image.length ≤ 3584) : boot q image quirks s = .next (booted q image quirks s) := by
  unfold boot
  rw [hostLoad_of_fits h]
  cases quirks <;> rfl

/-- The boot sequence stops at a `LOAD` that is refused (R285). -/
theorem boot_of_too_long {image : List Byte} (q : QuirkDefaults) (quirks : Option (Bool × Bool)) (s : State)
    (h : image.length > 3584) : boot q image quirks s = .fault .capacityError := by
  unfold boot
  rw [hostLoad_of_too_long h]

/-- Settles O58: by whether the image fits; where it does, the image is what the `LOAD` stored, above the font. -/
theorem bootPlacesTheProgram : Obligations.BootPlacesTheProgram := by
  intro q image quirks s
  refine ⟨fun hfits => ⟨_, boot_of_fits q quirks s hfits, rfl, rfl, fun j => byteAt_storeBytes_getD 0x200,
    fun a ha => ?_, rfl⟩, fun hlong => ?_⟩
  · have hbelow : ¬ (0x200 ≤ a ∧ a < 0x200 + image.length) := by omega
    exact (byteAt_storeBytes_of_outside (hostInitialise q s) 0x200 image hbelow).trans (byteAt_hostInitialise q s a)
  · exact boot_of_too_long q quirks s hlong

end Sys2Proof.Machine
